-- ==== Sys2Proof/Word.lean ====
section
/-! DEFINITION. The word and byte of the engine: a state word is 32 bits (00_scope R7, R8), a window is a sequence
of bytes (20_memory R33). No value of the spec is signed (R8). -/

namespace Sys2Proof

/-- A State word, a packet word, an element of a lane: unsigned, 32 bits (R7, R8). -/
abbrev Word := BitVec 32

/-- One byte of a window (R33). -/
abbrev Byte := BitVec 8

end Sys2Proof
end

