-- ==== Sys2Proof/Syntax.lean ====
section
/-! DEFINITION. The seven commands of 30_encoding R49, one constructor per row of spec/opcode_table.json. ROUNDS,
KEYBITS and LEN are plain unsigned integers (R57), so they are Nat here; the widths of their fields are WellFormed's. -/

namespace Sys2Proof

/-- A backend, as DISPATCH's PREF names it (R57): scalar, V4 (128-bit) or V8 (256-bit). PREF = 3 names none (R58). -/
inductive Backend where
  | scalar
  | v4
  | v8
deriving DecidableEq, Repr

/-- The eight key words K0 to K7 of a setup packet (R50, R51). -/
structure KeyWords where
  k0 : Word
  k1 : Word
  k2 : Word
  k3 : Word
  k4 : Word
  k5 : Word
  k6 : Word
  k7 : Word
deriving DecidableEq, Repr

/-- The commands of R49. -/
inductive Instr where
  /-- SETUP.ORIG, format S (R50, R63): KEYBITS, K0 to K7, C0 (low), C1 (high), N0 (low), N1 (high). -/
  | setupOrig (keybits : Nat) (key : KeyWords) (c0 c1 n0 n1 : Word)
  /-- SETUP.RFC, format R (R51, R64): K0 to K7, C0, N0, N1, N2. -/
  | setupRfc (key : KeyWords) (c0 n0 n1 n2 : Word)
  /-- GEN1, format G (R52, R85): X and ROUNDS. -/
  | gen1 (x : Bool) (rounds : Nat)
  /-- GEN4, format G (R52, R100): X and ROUNDS. -/
  | gen4 (x : Bool) (rounds : Nat)
  /-- GEN8, format G (R52, R101): X and ROUNDS. -/
  | gen8 (x : Bool) (rounds : Nat)
  /-- DISPATCH, format D (R53, R104): PREF, X, ROUNDS and the byte count LEN. -/
  | dispatch (pref : Backend) (x : Bool) (rounds : Nat) (len : Nat)
  /-- ZEROIZE, format Z (R54, R65). -/
  | zeroize
deriving DecidableEq, Repr

end Sys2Proof
end

