-- ==== Sys2Proof/WellFormed.lean ====
section
/-! DEFINITION. When a command can be written as a packet: its integer operands fit their fields (30_encoding R48,
R53). A KEYBITS or ROUNDS value the engine refuses is still well-formed: it decodes and then faults (R58). -/

namespace Sys2Proof

/-- KEYBITS fits cw[9:0] (R48). -/
abbrev KeybitsFits (keybits : Nat) : Prop := keybits < 2 ^ 10

/-- ROUNDS fits cw[23:16] (R48). -/
abbrev RoundsFits (rounds : Nat) : Prop := rounds < 2 ^ 8

/-- LEN fits the two operand words LEN_LO and LEN_HI (R53). -/
abbrev LenFits (len : Nat) : Prop := len < 2 ^ 64

/-- The command has an encoding: every integer operand fits its field. -/
def WellFormed : Instr → Bool
  | .setupOrig keybits _ _ _ _ _ => decide (KeybitsFits keybits)
  | .setupRfc _ _ _ _ _ => true
  | .gen1 _ rounds => decide (RoundsFits rounds)
  | .gen4 _ rounds => decide (RoundsFits rounds)
  | .gen8 _ rounds => decide (RoundsFits rounds)
  | .dispatch _ _ rounds len => decide (RoundsFits rounds) && decide (LenFits len)
  | .zeroize => true

end Sys2Proof
end

