-- ==== Sys2Proof/Decode.lean ====
section
/-! DEFINITION. The decoder of 30_encoding, total and in the order of R60, rejecting by name, and the encoder written
from the same field layout (R48) and formats (R50 to R54). Decoding reads no state (R60). -/

namespace Sys2Proof

/-! The fields of a command word (R48). -/

/-- OP, cw[31:28]. -/
def opField (cw : Word) : Nat := (cw.extractLsb' 28 4).toNat
/-- PREF, cw[27:26]. -/
def prefField (cw : Word) : Nat := (cw.extractLsb' 26 2).toNat
/-- X, cw[25]. -/
def xField (cw : Word) : Bool := cw.getLsbD 25
/-- ROUNDS, cw[23:16], zero-extended (R57). -/
def roundsField (cw : Word) : Nat := (cw.extractLsb' 16 8).toNat
/-- KEYBITS, cw[9:0], zero-extended (R57). -/
def keybitsField (cw : Word) : Nat := (cw.extractLsb' 0 10).toNat

/-- The number of words of a packet, told by OP alone, legal or not (R55). -/
def packetWords (op : Nat) : Nat :=
  if op = 1 ∨ op = 2 then 13 else if op = 6 then 3 else 1

/-- One row of the opcode map: the OP value, the pattern of the command word and its mask (R49 to R54). -/
structure FormatRow where
  op : Nat
  pattern : Word
  mask : Word
deriving DecidableEq, Repr

/-- The opcode map (R49) with the match and mask of each format (R50 to R54). -/
def opcodeMap : List FormatRow :=
  [ { op := 1, pattern := 0x10000000, mask := 0xFFFFFC00 },
    { op := 2, pattern := 0x20000000, mask := 0xFFFFFFFF },
    { op := 3, pattern := 0x30000000, mask := 0xFD00FFFF },
    { op := 4, pattern := 0x40000000, mask := 0xFD00FFFF },
    { op := 5, pattern := 0x50000000, mask := 0xFD00FFFF },
    { op := 6, pattern := 0x60000000, mask := 0xF100FFFF },
    { op := 7, pattern := 0x70000000, mask := 0xFFFFFFFF } ]

/-- The command word has the row's fixed bits: every bit the format lists as zero is 0 (R58). -/
def FormatRow.fits (r : FormatRow) (cw : Word) : Bool := cw &&& r.mask == r.pattern

/-- The backend a PREF value names (R57); 3 is reserved (R48). -/
def backendOf (pref : Nat) : Option Backend :=
  match pref with
  | 0 => some .scalar
  | 1 => some .v4
  | 2 => some .v8
  | _ => none

/-- Why a sequence of words is no command. The last three make the command word illegal (R58); the first two say
that the words are no packet, which R47 and R55 leave without a meaning (log entry 5). -/
inductive Reject where
  /-- There is no command word. -/
  | emptyPacket
  /-- The number of words is not the one R55 gives the command word's OP. -/
  | wrongLength
  /-- OP is 0x0 or 0x8 to 0xF (R58). -/
  | noSuchOpcode
  /-- A bit the command's format lists as zero is 1 (R58). -/
  | reservedBitSet
  /-- The command is DISPATCH and PREF = 3 (R58). -/
  | reservedPreference
deriving DecidableEq, Repr

/-- What the decoder answers. -/
inductive Decoded where
  | command (i : Instr)
  | rejected (r : Reject)
deriving DecidableEq, Repr

/-- Step (4) of R60: the command with its fields (R56, R57), once OP and the zero bits have passed. -/
def assemble (cw : Word) (operands : List Word) : Decoded :=
  match opField cw, operands with
  | 1, [k0, k1, k2, k3, k4, k5, k6, k7, c0, c1, n0, n1] =>
    .command (.setupOrig (keybitsField cw) ⟨k0, k1, k2, k3, k4, k5, k6, k7⟩ c0 c1 n0 n1)
  | 2, [k0, k1, k2, k3, k4, k5, k6, k7, c0, n0, n1, n2] =>
    .command (.setupRfc ⟨k0, k1, k2, k3, k4, k5, k6, k7⟩ c0 n0 n1 n2)
  | 3, [] => .command (.gen1 (xField cw) (roundsField cw))
  | 4, [] => .command (.gen4 (xField cw) (roundsField cw))
  | 5, [] => .command (.gen8 (xField cw) (roundsField cw))
  | 6, [lenLo, lenHi] =>
    match backendOf (prefField cw) with
    | some pref => .command (.dispatch pref (xField cw) (roundsField cw) (2 ^ 32 * lenHi.toNat + lenLo.toNat))
    | none => .rejected .reservedPreference
  | 7, [] => .command .zeroize
  | _, _ => .rejected .wrongLength

/-- The row of the opcode map that an OP value names, if any (R49). -/
def rowOf (op : Nat) : Option FormatRow := opcodeMap.find? (fun r => r.op == op)

/-- The decoder (R60): (1) OP and the packet length, (2) an OP that names no command, (3) the format's zero bits and
PREF, (4) the command. -/
def decode (packet : List Word) : Decoded :=
  match packet with
  | [] => .rejected .emptyPacket
  | cw :: operands =>
    if operands.length + 1 ≠ packetWords (opField cw) then .rejected .wrongLength
    else match rowOf (opField cw) with
      | none => .rejected .noSuchOpcode
      | some row => if row.fits cw then assemble cw operands else .rejected .reservedBitSet

/-- The command word is illegal (R58), as opposed to the packet's being no packet at all. -/
def Reject.isIllegal : Reject → Bool
  | .emptyPacket => false
  | .wrongLength => false
  | .noSuchOpcode => true
  | .reservedBitSet => true
  | .reservedPreference => true

/-- A command word from its fields (R48): OP, PREF, X, ROUNDS and KEYBITS at bits 28, 26, 25, 16 and 0. -/
def commandWord (op pref : Nat) (x : Bool) (rounds keybits : Nat) : Word :=
  BitVec.ofNat 32 (op * 2 ^ 28 + pref * 2 ^ 26 + x.toNat * 2 ^ 25 + rounds * 2 ^ 16 + keybits)

/-- PREF of a backend (R57). -/
def Backend.pref : Backend → Nat
  | .scalar => 0
  | .v4 => 1
  | .v8 => 2

/-- The key words in packet order (R50, R51). -/
def KeyWords.toList (k : KeyWords) : List Word := [k.k0, k.k1, k.k2, k.k3, k.k4, k.k5, k.k6, k.k7]

/-- The packet of a well-formed command (R50 to R54). -/
def encode : Instr → List Word
  | .setupOrig keybits key c0 c1 n0 n1 => commandWord 1 0 false 0 keybits :: (key.toList ++ [c0, c1, n0, n1])
  | .setupRfc key c0 n0 n1 n2 => commandWord 2 0 false 0 0 :: (key.toList ++ [c0, n0, n1, n2])
  | .gen1 x rounds => [commandWord 3 0 x rounds 0]
  | .gen4 x rounds => [commandWord 4 0 x rounds 0]
  | .gen8 x rounds => [commandWord 5 0 x rounds 0]
  | .dispatch pref x rounds len =>
    [commandWord 6 pref.pref x rounds 0, BitVec.ofNat 32 (len % 2 ^ 32), BitVec.ofNat 32 (len / 2 ^ 32)]
  | .zeroize => [commandWord 7 0 false 0 0]

/-- The lowest n words of a number, least significant first, its bits from nbits on taken as 0. -/
def splitWords : Nat → Nat → Nat → List Word
  | 0, _, _ => []
  | n + 1, nbits, v => BitVec.ofNat 32 (v % 2 ^ min nbits 32) :: splitWords n (nbits - 32) (v / 2 ^ 32)

/-- The packet whose bits are w, numbered as spec/opcode_table.json numbers them: packet word k is bits 32k + 31 down
to 32k, the bits from nbits on are 0, and OP tells how many words there are (R55). Packet words are values, so no
byte order enters (R47). -/
def tablePacket (nbits w : Nat) : List Word :=
  splitWords (packetWords (opField (BitVec.ofNat 32 (w % 2 ^ min nbits 32)))) nbits w

/-- The command the decoder reads from an instruction whose bits are w. -/
def decodeTableWord (nbits w : Nat) : Option Instr :=
  match decode (tablePacket nbits w) with
  | .command i => some i
  | .rejected _ => none

end Sys2Proof
end

