-- ==== Sys2Proof/Config.lean ====
section
/-! DEFINITION. What an implementation fixes: the parameters of 00_scope R6, which "a model takes as arguments",
and the platform's base addresses of 20_memory R40, which no rule reads. -/

namespace Sys2Proof

/-- The instance's parameters (R6, open parameters of 92_eei_decisions). They are no state of the engine (R30): exec
takes only an instruction and a state, so State carries them in a field that no step changes (log entry 1). A
statement about every state is therefore a statement about every instance. -/
structure Config where
  /-- HAS_V4: the 4-wide (128-bit vector) backend exists in this instance. -/
  hasV4 : Bool
  /-- HAS_V8: the 8-wide (256-bit vector) backend exists; it does not imply HAS_V4 (R102). -/
  hasV8 : Bool
  /-- Bit r says that the instance accepts the round count r, for an r that R6 leaves open. -/
  roundsOpen : BitVec 256
deriving DecidableEq, Repr

/-- The default instance: R6's default ROUNDS_SUPPORTED (every even count from 2 to 254) and, as 95_test_vectors takes
"unless a vector says otherwise", both wide backends. -/
def Config.default : Config := { hasV4 := true, hasV8 := true, roundsOpen := BitVec.allOnes 256 }

/-- CMD_BASE, where a platform places the command port: open, and read by no rule (R40, D16; log entry 10). -/
opaque Config.cmdBase : Nat
/-- RD_BASE, where a platform places the read port: open, and read by no rule (R40, D16). -/
opaque Config.rdBase : Nat
/-- IN_BASE, where a platform places the input window: open, and read by no rule (R40, D16). -/
opaque Config.inBase : Nat
/-- OUT_BASE, where a platform places the output window: open, and read by no rule (R40, D16). -/
opaque Config.outBase : Nat

end Sys2Proof
end

