-- ==== Sys2Proof/Machine/State.lean ====
section
/-! DEFINITION. The state of the engine (10_state R13 to R32), what the host may do to it (R29, R33, R131), the reasons
a step can stop, and the state after reset (R32). Everything is plain data. -/

namespace Sys2Proof.Machine

/-- Sixteen like things by word index 0 to 15: the State's words (R13), the scalar working lanes (R26), the vector
working registers (R27). -/
@[ext] structure Regs (α : Type) where
  w0 : α
  w1 : α
  w2 : α
  w3 : α
  w4 : α
  w5 : α
  w6 : α
  w7 : α
  w8 : α
  w9 : α
  w10 : α
  w11 : α
  w12 : α
  w13 : α
  w14 : α
  w15 : α
deriving DecidableEq, Repr

/-- CONV (R19): which of the two layouts of words 12 to 15 the State has. -/
inductive Conv where
  | original
  | rfc7539
deriving DecidableEq, Repr

/-- The causes of 60_exceptions R114, by name; CAUSE holds their codes. -/
inductive Cause where
  | invalidKeybits
  | invalidRounds
  | backendUnavailable
  | illegalCommand
  | stateNotSet
deriving DecidableEq, Repr

/-- The bytes of one window, each at its offset (R33), offsets strictly rising. An offset that is not listed has no
byte: neither the host nor the engine has put one there (log entry 3). -/
abbrev Memory := List Host.Cell

/-- What the host can do (R11, R29, R131): place an input window, place an output window with what it holds, present
a packet, read a word at the read port, reset the engine. -/
inductive HostAct where
  /-- Supply the input window: its bytes from offset 0 (R33, R42 (c)). -/
  | attachIn (bytes : List Byte)
  /-- Give the engine an output window that holds these bytes from offset 0 (R33). -/
  | attachOut (bytes : List Byte)
  /-- Present a packet, delivered whole at the command port (R47). -/
  | packet (words : List Word)
  /-- Read the read port at a word index (R23). -/
  | read (index : Nat)
  /-- Reset the engine (R131). -/
  | reset
deriving DecidableEq, Repr

/-- The state. The transients W, V, V0 and the keystream hold no value between commands (R28) and are local values of
the meanings (log entry 7). -/
structure State where
  /-- S[0] to S[15] (R13). -/
  words : Regs Word
  /-- CONV (R19). -/
  conv : Conv
  /-- VALID (R20). -/
  valid : Bool
  /-- FAULT (R21). -/
  fault : Bool
  /-- CAUSE (R21, R114). -/
  cause : BitVec 4
  /-- IN, the attached input window (R29, R33). -/
  inWin : Memory
  /-- OUT, the bytes of the output window (R29, R33). With no window attached they are those of every command since the
  last reset, each offset as last written (DESIGN CHOICE, log entry 3). -/
  outWin : Memory
  /-- How many bytes the output window has that the host attached (R133 (e)). None: the host attached no window, and
  OUT is what the model returns as a result (R33), of the length the command needs (R29; log entry 3). -/
  outLen : Option Nat
  /-- The instance's parameters (R6); the model's own field, changed by no step (log entry 1). -/
  cfg : Config
  /-- The host's acts still to come, oldest first; the model's own field (log entry 2). -/
  pending : List HostAct
deriving DecidableEq, Repr

/-- Why the model stops with a fault. The engine's own faults (R118) are next states and not among these. -/
inductive Fault where
  /-- Raised by a read of the read port (performAct) at an index above 16: "no other index exists" (R23, log
  entry 8). Safe: the model stops where the spec says there is nothing to read. -/
  | noSuchReadIndex (index : Nat)
deriving DecidableEq, Repr

/-- Why the model gives no meaning. -/
inductive Refusal where
  /-- An instruction exec has no meaning for yet, by its mnemonic. Safe. -/
  | notModelled (mnemonic : String)
  /-- Raised by GEN1, GEN4, GEN8 and DISPATCH in XOR mode (execGen1, execGen4, execGen8, execDispatch) when the host
  has supplied no byte at an offset of IN the command reads: 93 U6 says refuse. Safe. -/
  | inputWindowShort
  /-- Raised by GEN1, GEN4, GEN8 and DISPATCH in either mode (execGen1, execGen4, execGen8, execDispatch) when the host
  attached an output window of fewer bytes than the command writes: 93 U6 says refuse, R124 puts it outside the spec
  (log entry 3). Safe. -/
  | outputWindowShort
  /-- Raised by a presented packet (presentPacket) whose number of words is not the one R55 gives its OP: packets are
  delivered whole (R47) and the spec gives such a delivery no effect (log entry 5). Safe. -/
  | notAPacket
deriving DecidableEq, Repr

/-- The same value in all sixteen places. -/
def Regs.all {α : Type} (a : α) : Regs α := ⟨a, a, a, a, a, a, a, a, a, a, a, a, a, a, a, a⟩

/-- The engine right after reset (R32): words, CONV, VALID, FAULT and CAUSE zero, both windows unattached, the command
port idle, on the default instance (log entry 1). -/
def State.reset : State :=
  { words := Regs.all 0
    conv := .original
    valid := false
    fault := false
    cause := 0
    inWin := []
    outWin := []
    outLen := none
    cfg := Config.default
    pending := [] }

end Sys2Proof.Machine
end

