-- ==== Sys2Proof/Machine/Flags.lean ====
section
/-! DEFINITION. The control fields and how they are computed: the cause codes (60_exceptions R114), the bit of CONV
(10_state R19), STATUS (R22), the transient condition of the counter advance (R25), and the flag condition a
generation command is accepted under. -/

namespace Sys2Proof.Machine

/-- The 4-bit code of a cause (R114). -/
def Cause.code : Cause → BitVec 4
  | .invalidKeybits => 1
  | .invalidRounds => 2
  | .backendUnavailable => 3
  | .illegalCommand => 4
  | .stateNotSet => 5

/-- CONV as a bit: 0 ORIGINAL, 1 RFC7539 (R19). -/
def Conv.bit : Conv → Bool
  | .original => false
  | .rfc7539 => true

/-- STATUS (R22): VALID at bit 0, FAULT at bit 1, CONV at bit 2, CAUSE at bits 7 to 4, every other bit 0. -/
def statusWord (s : State) : Word :=
  BitVec.ofNat 32 (s.valid.toNat + s.fault.toNat * 2 + s.conv.bit.toNat * 4 + s.cause.toNat * 2 ^ 4)

/-- The transient condition wrapped (R25): the incremented low counter word is zero. -/
def wrapped (low : Word) : Bool := low == 0

/-- Which cause, if any, a generation command faults with at acceptance, in the order of R121: the round count, then
the requested backend, then VALID. -/
def generationCause (roundsOk backendOk valid : Bool) : Option Cause :=
  if !roundsOk then some .invalidRounds
  else if !backendOk then some .backendUnavailable
  else if !valid then some .stateNotSet
  else none

end Sys2Proof.Machine
end

