-- ==== Sys2Proof/Machine/Ops.lean ====
section
/-! DEFINITION. The named operations over the sixteen words, the windows (20_memory R33) and the fault latch
(60_exceptions R118): every meaning reads and writes the state through these. -/

namespace Sys2Proof.Machine

/-! Sixteen things by index. -/

/-- The same function on all sixteen. -/
def Regs.map {α β : Type} (f : α → β) (r : Regs α) : Regs β :=
  ⟨f r.w0, f r.w1, f r.w2, f r.w3, f r.w4, f r.w5, f r.w6, f r.w7,
   f r.w8, f r.w9, f r.w10, f r.w11, f r.w12, f r.w13, f r.w14, f r.w15⟩

/-- Index by index on two sixteens. -/
def Regs.zipWith {α β γ : Type} (f : α → β → γ) (r : Regs α) (t : Regs β) : Regs γ :=
  ⟨f r.w0 t.w0, f r.w1 t.w1, f r.w2 t.w2, f r.w3 t.w3, f r.w4 t.w4, f r.w5 t.w5, f r.w6 t.w6, f r.w7 t.w7,
   f r.w8 t.w8, f r.w9 t.w9, f r.w10 t.w10, f r.w11 t.w11, f r.w12 t.w12, f r.w13 t.w13, f r.w14 t.w14,
   f r.w15 t.w15⟩

/-- In index order (R18). -/
def Regs.toList {α : Type} (r : Regs α) : List α :=
  [r.w0, r.w1, r.w2, r.w3, r.w4, r.w5, r.w6, r.w7, r.w8, r.w9, r.w10, r.w11, r.w12, r.w13, r.w14, r.w15]

/-! Windows (R33). -/

/-- What an offset that nothing has put a byte at reads as: no value (log entry 3). -/
def Memory.unlisted : Option Byte := none

/-- The byte at an offset. -/
def Memory.read : Memory → Nat → Option Byte
  | [], _ => Memory.unlisted
  | (o, b) :: rest, off => if o = off then some b else Memory.read rest off

/-- Put a byte at an offset, keeping the offsets strictly rising. -/
def Memory.write : Memory → Nat → Byte → Memory
  | [], off, b => [(off, b)]
  | (o, c) :: rest, off, b =>
    if off < o then (off, b) :: (o, c) :: rest
    else if off = o then (off, b) :: rest
    else (o, c) :: Memory.write rest off b

/-- MemRead(IN, off, n): the n bytes from offset off in offset order (R9, R33), if every one of them is there. -/
def Memory.readBytes (m : Memory) : Nat → Nat → Option (List Byte)
  | _, 0 => some []
  | off, n + 1 =>
    match m.read off, m.readBytes (off + 1) n with
    | some b, some bs => some (b :: bs)
    | _, _ => none

/-- MemWrite(OUT, off, n, v): the bytes of v from offset off on, in order (R9, R33). -/
def Memory.writeBytes (m : Memory) : Nat → List Byte → Memory
  | _, [] => m
  | off, b :: bs => Memory.writeBytes (m.write off b) (off + 1) bs

/-- The window that holds a byte sequence from offset 0 (R33). -/
def Memory.ofBytes (bytes : List Byte) : Memory := Memory.writeBytes [] 0 bytes

/-- The canonical form: offsets strictly rising. No entry can equal what an unlisted offset reads as, which is no
value. -/
abbrev Memory.wf (m : Memory) : Prop := m.Pairwise (fun c d => c.1 < d.1)

/-- OUT has room for its bytes below n: the host attached a window of at least n bytes, or none at all, and then OUT is
a result of the length the command needs (R29, R33, R133 (e)). -/
def outRoom (s : State) (n : Nat) : Bool :=
  match s.outLen with
  | none => true
  | some len => decide (n ≤ len)

/-! State updates. -/

/-- S <- v (R9, R13). -/
def State.setWords (s : State) (v : Regs Word) : State := { s with words := v }

/-- MemWrite into OUT (R33): every other byte of OUT stays, as R34 says of an attached window. With none attached it is a
DESIGN CHOICE (log entry 3) that OUT is not emptied first: bytes of earlier commands stay past those a command writes. -/
def State.writeOut (s : State) (off : Nat) (bytes : List Byte) : State :=
  { s with outWin := s.outWin.writeBytes off bytes }

/-- The end of a setup: S, CONV and VALID <- 1 (R63, R64, R67). -/
def State.populate (s : State) (v : Regs Word) (conv : Conv) : State :=
  { s with words := v, conv := conv, valid := true }

/-- Destroy the State: S <- 0, CONV <- 0, VALID <- 0 (R65). -/
def State.destroy (s : State) : State :=
  { s with words := Regs.all 0, conv := .original, valid := false }

/-- raise Fault(c), the engine's one fault entry (R118): FAULT <- 1, CAUSE <- c, and nothing else changes. There is no
return from it (R123). -/
def raiseFault (c : Cause) (s : State) : State := { s with fault := true, cause := c.code }

/-- Reset, the only way to clear FAULT (R131, R32): every piece of the engine's state has its reset value; the instance
and what the host does next are not the engine's state. -/
def resetEngine (s : State) : State := { State.reset with cfg := s.cfg, pending := s.pending }

/-- The outcome of a command of nb blocks whose fault, if any, is decided at acceptance (R121, R122): the fault entry,
or what the command does; a byte of IN the host did not supply is refused, and so is an attached output window of fewer
than 64 nb bytes (R124, R133 (e), 93 U6). -/
def accepted (cause : Option Cause) (nb : Nat) (run : Option State) (s : State) : Host.Outcome State Fault Refusal :=
  match cause with
  | some c => .next (raiseFault c s)
  | none =>
    match run with
    | none => .refused .inputWindowShort
    | some t => if outRoom s (64 * nb) then .next t else .refused .outputWindowShort

end Sys2Proof.Machine
end

