-- ==== Sys2Proof/Machine/Operands.lean ====
section
/-! DEFINITION. The operand forms: words and bytes (00_scope R9), the tags (10_state R14, 40_setup R66), operands given
as byte strings (30_encoding R56), round counts (00_scope R6), the serialised block (20_memory R35) and the State image
(10_state R18). -/

namespace Sys2Proof

/-- The number of blocks in a width group (R57). -/
def Backend.width : Backend → Nat
  | .scalar => 1
  | .v4 => 4
  | .v8 => 8

/-- The instance has the backend; the scalar one always exists (R6, R102). -/
def Backend.available (cfg : Config) : Backend → Bool
  | .scalar => true
  | .v4 => cfg.hasV4
  | .v8 => cfg.hasV8

end Sys2Proof

namespace Sys2Proof.Machine

/-- LE32 (R9): the word of four bytes, least significant byte first. -/
def le32 (b0 b1 b2 b3 : Byte) : Word :=
  BitVec.ofNat 32 (b0.toNat + 2 ^ 8 * b1.toNat + 2 ^ 16 * b2.toNat + 2 ^ 24 * b3.toNat)

/-- BYTES32 (R9): the four bytes of a word, least significant byte first. -/
def bytes32 (w : Word) : List Byte :=
  [w.extractLsb' 0 8, w.extractLsb' 8 8, w.extractLsb' 16 8, w.extractLsb' 24 8]

/-- BYTES32 of every word in index order: a block's serialisation (R35, R81) and the memory image of the State (R18). -/
def serialise (v : Regs Word) : List Byte := v.toList.flatMap bytes32

/-- Byte-wise exclusive or of two byte sequences (R82). -/
def xorBytes (a b : List Byte) : List Byte := List.zipWith (fun p q => p ^^^ q) a b

/-- LE32 of consecutive 4-byte groups (R56); bytes past the last whole group are no operand. -/
def le32Groups : List Byte → List Word
  | b0 :: b1 :: b2 :: b3 :: rest => le32 b0 b1 b2 b3 :: le32Groups rest
  | _ => []

/-- Words 0 to 3 of a State (R14): one of the two 16-byte tags, read as four little-endian words (R66). -/
structure Tag where
  t0 : Word
  t1 : Word
  t2 : Word
  t3 : Word
deriving DecidableEq, Repr

/-- The tag of a 256-bit key (R66). -/
def tag32 : Tag := ⟨0x61707865, 0x3320646E, 0x79622D32, 0x6B206574⟩

/-- The tag of a 128-bit key (R66). -/
def tag16 : Tag := ⟨0x61707865, 0x3120646E, 0x79622D36, 0x6B206574⟩

/-- A 128-bit key in both halves (R15): K0 to K3 in words 4 to 7 and again, in the same order, in words 8 to 11;
K4 to K7 are ignored (D27). -/
def mirrorKey (k : KeyWords) : KeyWords := ⟨k.k0, k.k1, k.k2, k.k3, k.k0, k.k1, k.k2, k.k3⟩

/-- The sixteen words of a State: the tag, the key words, and words 12 to 15 (R14 to R17). -/
def layout (t : Tag) (k : KeyWords) (w12 w13 w14 w15 : Word) : Regs Word :=
  ⟨t.t0, t.t1, t.t2, t.t3, k.k0, k.k1, k.k2, k.k3, k.k4, k.k5, k.k6, k.k7, w12, w13, w14, w15⟩

/-- ROUNDS_SUPPORTED (R6): never an odd count, never outside 2 to 254, always 8, 12 and 20, and of the rest what the
instance says. -/
def roundsSupported (cfg : Config) (rounds : Nat) : Bool :=
  rounds % 2 == 0 && decide (2 ≤ rounds) && decide (rounds ≤ 254)
    && (rounds == 8 || rounds == 12 || rounds == 20 || cfg.roundsOpen.getLsbD rounds)

/-- NB of a DISPATCH (R105): whole blocks only, rounded down. -/
def blockCount (len : Nat) : Nat := len / 64

end Sys2Proof.Machine
end

