-- ==== Sys2Proof/Machine/RoundTransform.lean ====
section
/-! DEFINITION. The round transform (41_round_transform R70 to R79), written once over the three operations it uses
(R77), so that a wide backend's rounds are the same text with the lane-wise operations in their place (43_block_wide
R94). It touches no state (R79). -/

namespace Sys2Proof.Machine

/-- rotl32 (R70): 32-bit circular left shift, for 1 <= n <= 31. -/
def rotl32 (x : Word) (n : Nat) : Word :=
  BitVec.ofNat 32 (x.toNat * 2 ^ n % 2 ^ 32 + x.toNat / 2 ^ (32 - n))

/-- rotr32 (R78): the rotation that undoes rotl32. -/
def rotr32 (x : Word) (n : Nat) : Word := rotl32 x (32 - n)

/-- The three operations of the round transform (R77) on a carrier: a word, or a vector of one word per lane. -/
structure Arith (α : Type) where
  add : α → α → α
  xor : α → α → α
  rotl : α → Nat → α

/-- On words (R77): addition modulo 2^32, exclusive or, rotl32. -/
def wordArith : Arith Word := { add := fun x y => x + y, xor := fun x y => x ^^^ y, rotl := rotl32 }

/-- The four words of a quarter round. -/
@[ext] structure Quad (α : Type) where
  a : α
  b : α
  c : α
  d : α
deriving DecidableEq, Repr

/-- QR (R71): eight steps in this order, each on the values the earlier steps left. -/
def quarterRound {α : Type} (op : Arith α) (q : Quad α) : Quad α :=
  let a := op.add q.a q.b
  let d := op.rotl (op.xor q.d a) 16
  let c := op.add q.c d
  let b := op.rotl (op.xor q.b c) 12
  let a := op.add a b
  let d := op.rotl (op.xor d a) 8
  let c := op.add c d
  let b := op.rotl (op.xor b c) 7
  ⟨a, b, c, d⟩

/-- The inverse of QR on words (R78): the eight steps undone last to first. The engine never computes it. -/
def quarterRoundInverse (q : Quad Word) : Quad Word :=
  let b := rotr32 q.b 7 ^^^ q.c
  let c := q.c - q.d
  let d := rotr32 q.d 8 ^^^ q.a
  let a := q.a - b
  let b := rotr32 b 12 ^^^ c
  let c := c - d
  let d := rotr32 d 16 ^^^ a
  let a := a - b
  ⟨a, b, c, d⟩

/-- COLROUND (R72): the columns (0,4,8,12) (1,5,9,13) (2,6,10,14) (3,7,11,15). -/
def columnRound {α : Type} (op : Arith α) (w : Regs α) : Regs α :=
  let p := quarterRound op ⟨w.w0, w.w4, w.w8, w.w12⟩
  let q := quarterRound op ⟨w.w1, w.w5, w.w9, w.w13⟩
  let r := quarterRound op ⟨w.w2, w.w6, w.w10, w.w14⟩
  let t := quarterRound op ⟨w.w3, w.w7, w.w11, w.w15⟩
  { w0 := p.a, w4 := p.b, w8 := p.c, w12 := p.d
    w1 := q.a, w5 := q.b, w9 := q.c, w13 := q.d
    w2 := r.a, w6 := r.b, w10 := r.c, w14 := r.d
    w3 := t.a, w7 := t.b, w11 := t.c, w15 := t.d }

/-- DIAGROUND (R73): the diagonals (0,5,10,15) (1,6,11,12) (2,7,8,13) (3,4,9,14). -/
def diagonalRound {α : Type} (op : Arith α) (w : Regs α) : Regs α :=
  let p := quarterRound op ⟨w.w0, w.w5, w.w10, w.w15⟩
  let q := quarterRound op ⟨w.w1, w.w6, w.w11, w.w12⟩
  let r := quarterRound op ⟨w.w2, w.w7, w.w8, w.w13⟩
  let t := quarterRound op ⟨w.w3, w.w4, w.w9, w.w14⟩
  { w0 := p.a, w5 := p.b, w10 := p.c, w15 := p.d
    w1 := q.a, w6 := q.b, w11 := q.c, w12 := q.d
    w2 := r.a, w7 := r.b, w8 := r.c, w13 := r.d
    w3 := t.a, w4 := t.b, w9 := t.c, w14 := t.d }

/-- DROUND (R74): the column round complete, then the diagonal round. -/
def doubleRound {α : Type} (op : Arith α) (w : Regs α) : Regs α := diagonalRound op (columnRound op w)

/-- A number of round pairs one after the other (R75, R111). -/
def roundPairs {α : Type} (op : Arith α) : Nat → Regs α → Regs α
  | 0, w => w
  | k + 1, w => roundPairs op k (doubleRound op w)

/-- PERMUTE (R75): rounds / 2 round pairs on a copy. -/
def permuteOver {α : Type} (op : Arith α) (w : Regs α) (rounds : Nat) : Regs α := roundPairs op (rounds / 2) w

/-- PERMUTE on sixteen words (R75). -/
def permute (s : Regs Word) (rounds : Nat) : Regs Word := permuteOver wordArith s rounds

end Sys2Proof.Machine
end

