-- ==== Sys2Proof/Machine/Scalar.lean ====
section
/-! DEFINITION. Scalar block generation (42_block_scalar): KEYSTREAM (R80), XOR mode (R82), ADVANCE (R83, R84) and GEN1
(R85), in the stage order LOAD, ROUND-PAIRS, FEED-FORWARD, STORE, ADVANCE (R86, R89). -/

namespace Sys2Proof.Machine

/-- The feed-forward (R80): the words before the permutation added back in, word-wise modulo 2^32. -/
def feedForward (w s : Regs Word) : Regs Word := Regs.zipWith (fun p q => p + q) w s

/-- KEYSTREAM (R80): the 64-byte block of sixteen words; it depends on them and on the round count only. -/
def keystream (s : Regs Word) (rounds : Nat) : List Byte := serialise (feedForward (permute s rounds) s)

/-- ADVANCE (R83): the low counter word always; the high one only under ORIGINAL and only when the low one wrapped. -/
def advance (conv : Conv) (s : Regs Word) : Regs Word :=
  let low := s.w12 + 1
  match conv with
  | .original => { s with w12 := low, w13 := if wrapped low then s.w13 + 1 else s.w13 }
  | .rfc7539 => { s with w12 := low }

/-- ADVANCE_N (R84): ADVANCE applied n times. -/
def advanceN (conv : Conv) : Nat → Regs Word → Regs Word
  | 0, s => s
  | n + 1, s => advanceN conv n (advance conv s)

/-- STORE of one block at a window offset (R82): the keystream itself, or in XOR mode the keystream xor the input block
byte by byte. No value when the host supplied no such input byte. -/
def storeBlock (x : Bool) (off : Nat) (ks : List Byte) (s : State) : Option State :=
  if x then
    match s.inWin.readBytes off 64 with
    | some input => some (s.writeOut off (xorBytes ks input))
    | none => none
  else some (s.writeOut off ks)

/-- S <- ADVANCE_N(S, CONV, n) (R84, R97). -/
def State.advanceBy (s : State) (n : Nat) : State := s.setWords (advanceN s.conv n s.words)

/-- The block body of GEN1 at a window offset (R85 lines 3 to 6, GEN1_BODY of R104): the block of the State as it
stands, the output, then the advance (R86). -/
def scalarBlock (x : Bool) (rounds off : Nat) (s : State) : Option State :=
  match storeBlock x off (keystream s.words rounds) s with
  | some t => some (t.advanceBy 1)
  | none => none

/-- GEN1 (R85): one block with the scalar backend, which every instance has. -/
def execGen1 (x : Bool) (rounds : Nat) (s : State) : Host.Outcome State Fault Refusal :=
  accepted (generationCause (roundsSupported s.cfg rounds) (Backend.scalar.available s.cfg) s.valid) 1
    (scalarBlock x rounds 0 s) s

end Sys2Proof.Machine
end

