-- ==== Sys2Proof/Machine/Wide.lean ====
section
/-! DEFINITION. Wide block generation (43_block_wide): the lane-wise operations (R91), VLOAD with the lane counters (R92,
R93), the vector rounds (R94), the per-lane feed-forward (R95), the transposing store (R96), the advance by N (R97),
and GEN4 and GEN8 (R100, R101). The word-sliced register file is the spec's reference model (10_state R27, R103); the
contract that it equals N scalar blocks (R98, R99) is stated as an obligation, not built in. -/

namespace Sys2Proof.Machine

/-- One vector register: element i is lane i's word (R27). A transient of one command (R28). -/
abbrev Vec (n : Nat) := Fin n → Word

/-- VADD (R91). -/
def vadd {n : Nat} (x y : Vec n) : Vec n := fun i => x i + y i
/-- VXOR (R91). -/
def vxor {n : Nat} (x y : Vec n) : Vec n := fun i => x i ^^^ y i
/-- VROTL (R91). -/
def vrotl {n : Nat} (x : Vec n) (k : Nat) : Vec n := fun i => rotl32 (x i) k
/-- VBCAST (R91). -/
def vbcast (n : Nat) (w : Word) : Vec n := fun _ => w

/-- The round transform's three operations in every lane at once (R94). -/
def vecArith (n : Nat) : Arith (Vec n) := { add := vadd, xor := vxor, rotl := vrotl }

/-- The 64-bit block counter of the original convention, S[13] || S[12] (R16, R93). -/
def counter64 (s : Regs Word) : Nat := 2 ^ 32 * s.w13.toNat + s.w12.toNat

/-- V[12] of the lanes (R93): the low word of base + i. -/
def laneLow (n : Nat) (conv : Conv) (s : Regs Word) : Vec n :=
  match conv with
  | .original => fun i => BitVec.ofNat 32 ((counter64 s + i.val) % 2 ^ 64 % 2 ^ 32)
  | .rfc7539 => fun i => BitVec.ofNat 32 ((s.w12.toNat + i.val) % 2 ^ 32)

/-- V[13] of the lanes (R93): the lane's own carried high word under ORIGINAL, the broadcast nonce word under RFC7539. -/
def laneHigh (n : Nat) (conv : Conv) (s : Regs Word) : Vec n :=
  match conv with
  | .original => fun i => BitVec.ofNat 32 ((counter64 s + i.val) % 2 ^ 64 / 2 ^ 32)
  | .rfc7539 => vbcast n s.w13

/-- VLOAD (R92): every word broadcast but the counter words, which are set per lane. -/
def vload (n : Nat) (conv : Conv) (s : Regs Word) : Regs (Vec n) :=
  { Regs.map (vbcast n) s with w12 := laneLow n conv s, w13 := laneHigh n conv s }

/-- VFEED (R95): every register's own pre-round value added back, lane by lane. -/
def vfeed {n : Nat} (v v0 : Regs (Vec n)) : Regs (Vec n) := Regs.zipWith vadd v v0

/-- The sixteen words of one lane, gathered from the sixteen registers (R96). -/
def lane {n : Nat} (v : Regs (Vec n)) (i : Fin n) : Regs Word := Regs.map (fun r => r i) v

/-- The lanes' blocks in counter order (R96). -/
def laneBlocks {n : Nat} (v : Regs (Vec n)) : List (List Byte) := List.ofFn (fun i => serialise (lane v i))

/-- Blocks stored one after the other from a window offset, lowest first (R96). -/
def storeBlocks (x : Bool) : List (List Byte) → Nat → State → Option State
  | [], _, s => some s
  | ks :: rest, off, s =>
    match storeBlock x off ks s with
    | some t => storeBlocks x rest (off + 64) t
    | none => none

/-- The keystream blocks of one wide invocation: VLOAD, the rounds, VFEED and the transposition (R92 to R96). -/
def wideBlocks (n : Nat) (conv : Conv) (s : Regs Word) (rounds : Nat) : List (List Byte) :=
  let v0 := vload n conv s
  laneBlocks (vfeed (permuteOver (vecArith n) v0 rounds) v0)

/-- One wide invocation of n lanes at a window offset (R92 to R97). -/
def wideGroup (n : Nat) (x : Bool) (rounds off : Nat) (s : State) : Option State :=
  match storeBlocks x (wideBlocks n s.conv s.words rounds) off s with
  | some t => some (t.advanceBy n)
  | none => none

/-- GEN4 (R100): one width group of four blocks with the 128-bit backend. -/
def execGen4 (x : Bool) (rounds : Nat) (s : State) : Host.Outcome State Fault Refusal :=
  accepted (generationCause (roundsSupported s.cfg rounds) (Backend.v4.available s.cfg) s.valid) 4
    (wideGroup 4 x rounds 0 s) s

/-- GEN8 (R101): one width group of eight blocks with the 256-bit backend. -/
def execGen8 (x : Bool) (rounds : Nat) (s : State) : Host.Outcome State Fault Refusal :=
  accepted (generationCause (roundsSupported s.cfg rounds) (Backend.v8.available s.cfg) s.valid) 8
    (wideGroup 8 x rounds 0 s) s

end Sys2Proof.Machine
end

