-- ==== Sys2Proof/Machine/Dispatcher.lean ====
section
/-! DEFINITION. The dispatcher (44_dispatch): the backend schedule (R104, R107) and DISPATCH. -/

namespace Sys2Proof.Machine

/-- The drain (R104, R107): one 4-wide group when exactly four blocks remain and the instance has the 4-wide backend,
scalar blocks otherwise. It never faults (R106). -/
def drain (hasV4 : Bool) (remaining : Nat) : List Backend :=
  if remaining = 4 ∧ hasV4 = true then [.v4] else List.replicate remaining .scalar

/-- The groups a DISPATCH of nb blocks runs, in order (R104, R107): floor(nb / G) groups of the preferred backend, then
the drain. -/
def schedule (hasV4 : Bool) (pref : Backend) (nb : Nat) : List Backend :=
  List.replicate (nb / pref.width) pref ++ drain hasV4 (nb % pref.width)

/-- One group by its backend at a window offset (R104): GEN1_BODY or GENN. -/
def runGroup (b : Backend) (x : Bool) (rounds off : Nat) (s : State) : Option State :=
  match b with
  | .scalar => scalarBlock x rounds off s
  | .v4 => wideGroup 4 x rounds off s
  | .v8 => wideGroup 8 x rounds off s

/-- The groups of a schedule one after the other, each at the offset the one before it ended at (R104). -/
def runSchedule (x : Bool) (rounds : Nat) : List Backend → Nat → State → Option State
  | [], _, s => some s
  | b :: rest, off, s =>
    match runGroup b x rounds off s with
    | some t => runSchedule x rounds rest (off + 64 * b.width) t
    | none => none

/-- DISPATCH (R104, R112): the availability check is on PREF alone, whatever LEN is (R106). -/
def execDispatch (pref : Backend) (x : Bool) (rounds len : Nat) (s : State) : Host.Outcome State Fault Refusal :=
  accepted (generationCause (roundsSupported s.cfg rounds) (pref.available s.cfg) s.valid) (blockCount len)
    (runSchedule x rounds (schedule s.cfg.hasV4 pref (blockCount len)) 0 s) s

end Sys2Proof.Machine
end

