-- ==== Sys2Proof/Machine/Setup.lean ====
section
/-! DEFINITION. The state setup commands of 40_setup: SETUP.ORIG (R63), SETUP.RFC (R64) and ZEROIZE (R65). They read no
prior state and no window, and write S, CONV and VALID only (R67, R68). -/

namespace Sys2Proof.Machine

/-- The sixteen words SETUP.ORIG leaves for an accepted KEYBITS (R63): the 32-byte tag and eight key words for 256, the
16-byte tag and the mirrored key for 128. -/
def originalWords (keybits : Nat) (key : KeyWords) (c0 c1 n0 n1 : Word) : Regs Word :=
  if keybits = 256 then layout tag32 key c0 c1 n0 n1 else layout tag16 (mirrorKey key) c0 c1 n0 n1

/-- SETUP.ORIG (R63, R115): any KEYBITS but 128 and 256 faults before anything is written. -/
def execSetupOrig (keybits : Nat) (key : KeyWords) (c0 c1 n0 n1 : Word) (s : State) :
    Host.Outcome State Fault Refusal :=
  if keybits ≠ 128 ∧ keybits ≠ 256 then .next (raiseFault .invalidKeybits s)
  else .next (s.populate (originalWords keybits key c0 c1 n0 n1) .original)

/-- SETUP.RFC (R64): always valid for its fixed key size. -/
def execSetupRfc (key : KeyWords) (c0 n0 n1 n2 : Word) (s : State) : Host.Outcome State Fault Refusal :=
  .next (s.populate (layout tag32 key c0 n0 n1 n2) .rfc7539)

/-- ZEROIZE (R65): FAULT and CAUSE stay. -/
def execZeroize (s : State) : Host.Outcome State Fault Refusal := .next s.destroy

end Sys2Proof.Machine
end

