-- ==== Sys2Proof/Machine/Dispatch.lean ====
section
/-! DEFINITION. The dispatch of a decoded command to its meaning, one arm per constructor (30_encoding R49). -/

namespace Sys2Proof.Machine

def exec (i : Instr) (s : State) : Host.Outcome State Fault Refusal :=
  match i with
  -- 40_setup R63, R64
  | .setupOrig keybits key c0 c1 n0 n1 => Sys2Proof.Machine.execSetupOrig keybits key c0 c1 n0 n1 s
  | .setupRfc key c0 n0 n1 n2 => Sys2Proof.Machine.execSetupRfc key c0 n0 n1 n2 s
  -- 42_block_scalar R85, 43_block_wide R100, R101
  | .gen1 x rounds => Sys2Proof.Machine.execGen1 x rounds s
  | .gen4 x rounds => Sys2Proof.Machine.execGen4 x rounds s
  | .gen8 x rounds => Sys2Proof.Machine.execGen8 x rounds s
  -- 44_dispatch R104
  | .dispatch pref x rounds len => Sys2Proof.Machine.execDispatch pref x rounds len s
  -- 40_setup R65
  | .zeroize => Sys2Proof.Machine.execZeroize s

end Sys2Proof.Machine
end

