-- ==== Sys2Proof/Machine/Port.lean ====
section
/-! DEFINITION. The engine's ports and what one act of the host does: the read port (10_state R23), the command port
(30_encoding R47, 60_exceptions R121, R123), the windows (20_memory R33) and reset (70_reset_and_hazards R131). -/

namespace Sys2Proof.Machine

/-- The read port (R23): index i = 0 to 15 returns S[i], index 16 returns STATUS, and no other index exists. -/
def readPort (s : State) (index : Nat) : Option Word := (s.words.toList ++ [statusWord s])[index]?

/-- A packet at the command port, in the order of R121: while FAULT = 1 it is not decoded and changes nothing (R123);
an illegal command word faults and the operand words are discarded (R58); a command is executed. Words that are no
packet are refused (log entry 5). -/
def presentPacket (packet : List Word) (s : State) : Host.Outcome State Fault Refusal :=
  if s.fault then .next s
  else match Sys2Proof.decode packet with
    | .command i => exec i s
    | .rejected r => if r.isIllegal then .next (raiseFault .illegalCommand s) else .refused .notAPacket

/-- One act of the host (R11, R29, R131). A read has no side effect (R23). -/
def performAct (act : HostAct) (s : State) : Host.Outcome State Fault Refusal :=
  match act with
  | .attachIn bytes => .next { s with inWin := Memory.ofBytes bytes }
  | .attachOut bytes => .next { s with outWin := Memory.ofBytes bytes, outLen := some bytes.length }
  | .packet words => presentPacket words s
  | .read index =>
    match readPort s index with
    | some _ => .next s
    | none => .fault (.noSuchReadIndex index)
  | .reset => .next (resetEngine s)

/-- One step: the host's oldest act. With none to come the engine waits for a packet (R131) and nothing changes. -/
def tick (s : State) : Host.Outcome State Fault Refusal :=
  match s.pending with
  | [] => .next s
  | act :: rest => performAct act { s with pending := rest }

/-- The state in which the host's next act is to present this packet. -/
def State.presenting (s : State) (packet : List Word) : State :=
  { s with pending := .packet packet :: s.pending }

end Sys2Proof.Machine
end

