-- ==== Sys2Proof/Machine/Step.lean ====
section
/-! DEFINITION. The step of the machine, and where the next instruction comes from: the command port (10_state R24,
30_encoding R47). The engine fetches nothing from a memory. -/

namespace Sys2Proof.Machine

/-- One step (00_scope R11): one act of the host, a command among them executed to completion. -/
def step (s : State) : Host.Outcome State Fault Refusal := tick s

/-- The state whose very next step is the presentation of the packet with bits w (log entry 2). An engine halted by a
fault accepts no packet (R123), and this does not change that. -/
def State.withFetchWord (s : State) (nbits w : Nat) : State := s.presenting (Sys2Proof.tablePacket nbits w)

end Sys2Proof.Machine
end

