-- ==== Sys2Proof/Machine/Assembler.lean ====
section
/-! DEFINITION. The host's side of the command port: operands given as byte strings (30_encoding R56), the assembler's
commands and pseudo-instructions (R62) and the textual form of a command stream (R61; log entry 9). It is no part of the
engine: it turns a line into the acts of the host that the line stands for. -/

namespace Sys2Proof.Machine

/-- A command as the assembler writes it (R61), with the pseudo-instructions of R62. Byte strings are in wire order; an
omitted counter is none. -/
inductive Asm where
  | setupOrig (keybits : Nat) (key nonce : List Byte) (ctr : Option Nat)
  | setupRfc (key nonce : List Byte) (ctr : Option Nat)
  | rekeyOrig (keybits : Nat) (key nonce : List Byte) (ctr : Option Nat)
  | rekeyRfc (key nonce : List Byte) (ctr : Option Nat)
  | gen1 (rounds : Nat) (x : Bool)
  | gen4 (rounds : Nat) (x : Bool)
  | gen8 (rounds : Nat) (x : Bool)
  | chacha8 (x : Bool)
  | chacha12 (x : Bool)
  | chacha20 (x : Bool)
  | dispatch (pref : Backend) (len rounds : Nat) (x : Bool)
  | encrypt (pref : Backend) (len rounds : Nat)
  | zeroize
deriving DecidableEq, Repr

/-- The eight key words of a key byte string of at most 32 bytes in whole words (R56); the words a shorter key leaves
over are sent as zero. -/
def keyWordsOf (key : List Byte) : Option KeyWords :=
  if key.length % 4 = 0 ∧ key.length ≤ 32 then
    match le32Groups (key ++ List.replicate (32 - key.length) 0) with
    | [k0, k1, k2, k3, k4, k5, k6, k7] => some ⟨k0, k1, k2, k3, k4, k5, k6, k7⟩
    | _ => none
  else none

/-- The key string has the length its key size asks for (R56): 16 bytes for 128, 32 bytes for 256. Another KEYBITS,
which the engine will refuse, says nothing of the string. -/
def keyLengthFits (keybits : Nat) (key : List Byte) : Bool :=
  if keybits = 128 then key.length == 16 else if keybits = 256 then key.length == 32 else true

/-- SETUP.ORIG from byte strings (R56): the counter's low word first, 0 when omitted (R62). -/
def setupOrigOf (keybits : Nat) (key nonce : List Byte) (ctr : Option Nat) : Option Instr :=
  let c := ctr.getD 0
  if keyLengthFits keybits key && decide (c < 2 ^ 64) then
    match keyWordsOf key, le32Groups nonce, nonce.length with
    | some k, [n0, n1], 8 =>
      some (.setupOrig keybits k (BitVec.ofNat 32 (c % 2 ^ 32)) (BitVec.ofNat 32 (c / 2 ^ 32)) n0 n1)
    | _, _, _ => none
  else none

/-- SETUP.RFC from byte strings (R56). -/
def setupRfcOf (key nonce : List Byte) (ctr : Option Nat) : Option Instr :=
  let c := ctr.getD 0
  if key.length == 32 && decide (c < 2 ^ 32) then
    match keyWordsOf key, le32Groups nonce, nonce.length with
    | some k, [n0, n1, n2], 12 => some (.setupRfc k (BitVec.ofNat 32 c) n0 n1 n2)
    | _, _, _ => none
  else none

/-- The one command a line stands for (R62: no pseudo-instruction expands to more than one). -/
def Asm.command : Asm → Option Instr
  | .setupOrig keybits key nonce ctr => setupOrigOf keybits key nonce ctr
  | .setupRfc key nonce ctr => setupRfcOf key nonce ctr
  | .rekeyOrig keybits key nonce ctr => setupOrigOf keybits key nonce ctr
  | .rekeyRfc key nonce ctr => setupRfcOf key nonce ctr
  | .gen1 rounds x => some (.gen1 x rounds)
  | .gen4 rounds x => some (.gen4 x rounds)
  | .gen8 rounds x => some (.gen8 x rounds)
  | .chacha8 x => some (.gen1 x 8)
  | .chacha12 x => some (.gen1 x 12)
  | .chacha20 x => some (.gen1 x 20)
  | .dispatch pref len rounds x => some (.dispatch pref x rounds len)
  | .encrypt pref len rounds => some (.dispatch pref true rounds len)
  | .zeroize => some .zeroize

/-! The text of a line (R61). -/

/-- The value of a hex digit. -/
def hexDigit (c : Char) : Option Nat :=
  if '0' ≤ c ∧ c ≤ '9' then some (c.toNat - '0'.toNat)
  else if 'a' ≤ c ∧ c ≤ 'f' then some (c.toNat - 'a'.toNat + 10)
  else if 'A' ≤ c ∧ c ≤ 'F' then some (c.toNat - 'A'.toNat + 10)
  else none

/-- The value of a decimal digit. -/
def decDigit (c : Char) : Option Nat :=
  if '0' ≤ c ∧ c ≤ '9' then some (c.toNat - '0'.toNat) else none

/-- Digits in a base, most significant first. -/
def digits (digit : Char → Option Nat) (base : Nat) : List Char → Nat → Option Nat
  | [], n => some n
  | c :: cs, n =>
    match digit c with
    | some d => digits digit base cs (base * n + d)
    | none => none

/-- An unsigned integer, decimal or 0x hexadecimal. -/
def number (text : List Char) : Option Nat :=
  match text with
  | [] => none
  | '0' :: 'x' :: c :: cs => digits hexDigit 16 (c :: cs) 0
  | cs => digits decDigit 10 cs 0

/-- A byte string: pairs of hex digits, blanks between them or not. -/
def hexPairs : List Char → Option (List Byte)
  | [] => some []
  | h :: l :: cs =>
    match hexDigit h, hexDigit l, hexPairs cs with
    | some a, some b, some rest => some (BitVec.ofNat 8 (16 * a + b) :: rest)
    | _, _, _ => none
  | [_] => none

/-- A byte string of a field's value. -/
def hexBytes (text : List Char) : Option (List Byte) := hexPairs (text.filter (fun c => c != ' '))

/-- Split at every occurrence of a character. -/
def splitAtChar (sep : Char) : List Char → List (List Char)
  | [] => [[]]
  | c :: cs =>
    match splitAtChar sep cs with
    | [] => [[]]
    | first :: rest => if c == sep then [] :: first :: rest else (c :: first) :: rest

/-- Drop the blanks at both ends. -/
def trim (text : List Char) : List Char :=
  ((text.dropWhile (fun c => c == ' ')).reverse.dropWhile (fun c => c == ' ')).reverse

/-- A line as its mnemonic and its comma-separated operands; '#' starts a comment (R61). -/
def lineParts (line : List Char) : List Char × List (List Char) :=
  let code := trim (line.takeWhile (fun c => c != '#'))
  let mnemonic := code.takeWhile (fun c => c != ' ')
  let operands := trim (code.drop mnemonic.length)
  (mnemonic, if operands = [] then [] else (splitAtChar ',' operands).map trim)

/-- The value of a field name=value, if an operand is one of that name. -/
def fieldValue (name : List Char) (operand : List Char) : Option (List Char) :=
  if name.isPrefixOf operand && operand[name.length]? == some '=' then some (trim (operand.drop (name.length + 1)))
  else none

/-- The only operand of a name, as a value. -/
def field (name : List Char) (operands : List (List Char)) : Option (List Char) :=
  match operands.filterMap (fieldValue name) with
  | [v] => some v
  | _ => none

/-- Every operand is one of the fields a command takes or one of its bare words, and none is given twice. -/
def onlyFields (names : List (List Char)) (words : List (List Char)) (operands : List (List Char)) : Bool :=
  operands.all (fun o => words.contains o || names.any (fun n => (fieldValue n o).isSome)) &&
    names.all (fun n => decide ((operands.filterMap (fieldValue n)).length ≤ 1)) &&
    words.all (fun w => decide (operands.count w ≤ 1))

/-- A backend by its name (R61). -/
def backendNamed (text : List Char) : Option Backend :=
  if text = ['s', 'c', 'a', 'l', 'a', 'r'] then some .scalar
  else if text = ['v', '4'] then some .v4
  else if text = ['v', '8'] then some .v8
  else none

/-- The counter operand: an omitted one is none, one that is no number makes the line no command. -/
def counterField (operands : List (List Char)) : Option (Option Nat) :=
  match operands.filterMap (fieldValue ['c', 't', 'r']) with
  | [] => some none
  | [v] => (number v).map some
  | _ => none

/-- xor stands among the operands (R61). -/
def xorWord (operands : List (List Char)) : Bool := operands.contains ['x', 'o', 'r']

/-- The operands of a generation command: r=<rounds> and xor. -/
def roundsAndXor (operands : List (List Char)) : Option (Nat × Bool) :=
  if onlyFields [['r']] [['x', 'o', 'r']] operands then
    ((field ['r'] operands).bind number).map (fun r => (r, xorWord operands))
  else none

/-- The operands of a setup after its key size: key, nonce and counter. -/
def setupOperands (operands : List (List Char)) : Option (List Byte × List Byte × Option Nat) :=
  if onlyFields [['k', 'e', 'y'], ['n', 'o', 'n', 'c', 'e'], ['c', 't', 'r']] [] operands then
    match (field ['k', 'e', 'y'] operands).bind hexBytes, (field ['n', 'o', 'n', 'c', 'e'] operands).bind hexBytes,
      counterField operands with
    | some key, some nonce, some ctr => some (key, nonce, ctr)
    | _, _, _ => none
  else none

/-- The operands of a dispatch: the backend, then len=<u64>, r=<rounds> and xor. -/
def dispatchOperands (operands : List (List Char)) : Option (Backend × Nat × Nat × Bool) :=
  match operands with
  | b :: rest =>
    if onlyFields [['l', 'e', 'n'], ['r']] [['x', 'o', 'r']] rest then
      match backendNamed b, (field ['l', 'e', 'n'] rest).bind number, (field ['r'] rest).bind number with
      | some pref, some len, some rounds => some (pref, len, rounds, xorWord rest)
      | _, _, _ => none
    else none
  | [] => none

/-- The operands of an original setup: the key size, then the rest. -/
def origOperands (operands : List (List Char)) : Option (Nat × List Byte × List Byte × Option Nat) :=
  match operands with
  | k :: rest =>
    match number k, setupOperands rest with
    | some keybits, some (key, nonce, ctr) => some (keybits, key, nonce, ctr)
    | _, _ => none
  | [] => none

/-- The operands of chacha8, chacha12, chacha20: xor or nothing (R62). -/
def xorOnly (operands : List (List Char)) : Option Bool :=
  if onlyFields [] [['x', 'o', 'r']] operands then some (xorWord operands) else none

/-- The command a mnemonic and its operands write (R61, R62). -/
def parseCommand (mnemonic : List Char) (operands : List (List Char)) : Option Asm :=
  if mnemonic = ['s', 'e', 't', 'u', 'p', '.', 'o', 'r', 'i', 'g'] then
    (origOperands operands).map (fun q => .setupOrig q.1 q.2.1 q.2.2.1 q.2.2.2)
  else if mnemonic = ['r', 'e', 'k', 'e', 'y', '.', 'o', 'r', 'i', 'g'] then
    (origOperands operands).map (fun q => .rekeyOrig q.1 q.2.1 q.2.2.1 q.2.2.2)
  else if mnemonic = ['s', 'e', 't', 'u', 'p', '.', 'r', 'f', 'c'] then
    (setupOperands operands).map (fun q => .setupRfc q.1 q.2.1 q.2.2)
  else if mnemonic = ['r', 'e', 'k', 'e', 'y', '.', 'r', 'f', 'c'] then
    (setupOperands operands).map (fun q => .rekeyRfc q.1 q.2.1 q.2.2)
  else if mnemonic = ['g', 'e', 'n', '1'] then (roundsAndXor operands).map (fun q => .gen1 q.1 q.2)
  else if mnemonic = ['g', 'e', 'n', '4'] then (roundsAndXor operands).map (fun q => .gen4 q.1 q.2)
  else if mnemonic = ['g', 'e', 'n', '8'] then (roundsAndXor operands).map (fun q => .gen8 q.1 q.2)
  else if mnemonic = ['c', 'h', 'a', 'c', 'h', 'a', '8'] then (xorOnly operands).map .chacha8
  else if mnemonic = ['c', 'h', 'a', 'c', 'h', 'a', '1', '2'] then (xorOnly operands).map .chacha12
  else if mnemonic = ['c', 'h', 'a', 'c', 'h', 'a', '2', '0'] then (xorOnly operands).map .chacha20
  else if mnemonic = ['d', 'i', 's', 'p', 'a', 't', 'c', 'h'] then
    (dispatchOperands operands).map (fun q => .dispatch q.1 q.2.1 q.2.2.1 q.2.2.2)
  else if mnemonic = ['e', 'n', 'c', 'r', 'y', 'p', 't'] then
    match dispatchOperands operands with
    | some (pref, len, rounds, false) => some (.encrypt pref len rounds)
    | _ => none
  else if mnemonic = ['z', 'e', 'r', 'o', 'i', 'z', 'e'] then
    (if operands = [] then some .zeroize else none)
  else none

/-- A line of a command stream as the host's acts (R61): the input window written beside the command, if any, and the
command's packet. A blank line or a comment is no act. A line that writes no command, or one whose operands do not fit
their fields, has no value. -/
def lineActs (line : List Char) : Option (List HostAct) :=
  let (mnemonic, operands) := lineParts line
  if mnemonic = [] then some []
  else
    let isWindow := fun o => (fieldValue ['i', 'n'] o).isSome || (fieldValue ['o', 'u', 't'] o).isSome
    match parseCommand mnemonic (operands.filter (fun o => !isWindow o)) with
    | none => none
    | some asm =>
      match asm.command with
      | none => none
      | some i =>
        if WellFormed i then
          match operands.filterMap (fieldValue ['i', 'n']) with
          | [] => some [.packet (encode i)]
          | [v] => (hexBytes v).map (fun bytes => [.attachIn bytes, .packet (encode i)])
          | _ => none
        else none

/-- A command stream, one command per line (R61). -/
def streamActs : List (List Char) → Option (List HostAct)
  | [] => some []
  | line :: rest =>
    match lineActs line, streamActs rest with
    | some acts, some more => some (acts ++ more)
    | _, _ => none

end Sys2Proof.Machine
end

