-- ==== Sys2Proof/Safety.lean ====
section
/-! DEFINITION. What counts as a good run and a good state, in the terms the claims use: the end of a run and its result
(70_reset_and_hazards R146), the host's duties that claims take as premises (R133), the invariants of 10_state R22 and
R31, and what it means that a command has emitted its blocks (20_memory R34, 44_dispatch R108).

The host's duties of R133 and where each stands: (a) the engine's own check of KEYBITS is execSetupOrig; (b) the host
chooses execSetupOrig or execSetupRfc, and Conv keeps the choice; (c) Fresh; (d) CounterRoom; (e) InputCovers and
OutputHolds; (f) blockCount; (g) Backend.available; (h) execZeroize; (i) State.pending, one act at a time. -/

namespace Sys2Proof.Machine

/-! The end of a run. -/

/-- The run has ended well (R146). -/
abbrev EndedWell (s : State) : Prop := s.fault = false

/-- NB, the number of blocks a command emits (R34). -/
def blocksOf : Instr → Nat
  | .setupOrig _ _ _ _ _ _ => 0
  | .setupRfc _ _ _ _ _ => 0
  | .gen1 _ _ => 1
  | .gen4 _ _ => 4
  | .gen8 _ _ => 8
  | .dispatch _ _ _ len => blockCount len
  | .zeroize => 0

/-- How many blocks the step from s to t emitted: those of the generation command it completed, none if it completed
none. -/
def blocksEmitted (s t : State) : Nat :=
  match s.pending with
  | .packet words :: _ =>
    match Sys2Proof.decode words with
    | .command i => if s.fault || t.fault then 0 else blocksOf i
    | .rejected _ => 0
  | _ => 0

/-- The OUT bytes a step from s to t adds to the run's result (R146): those of the blocks it emitted. -/
def outputOf (s t : State) : List Byte := (t.outWin.readBytes 0 (64 * blocksEmitted s t)).getD []

/-- At most n steps of a run, with the bytes emitted so far (R146). The run ends where a command has faulted, whatever
the host does after that. A list of acts with a reset before that end is no run and has no result (DEDUCED, log entry
2); nor is there one if the model stops. -/
def runFrom : Nat → State → List Byte → Option (List Byte × State)
  | 0, s, emitted => some (emitted, s)
  | n + 1, s, emitted =>
    if s.fault then some (emitted, s)
    else if s.pending.head? = some .reset then none
    else match step s with
    | .next t => runFrom n t (emitted ++ outputOf s t)
    | .fault _ => none
    | .refused _ => none

/-- The run of the host's acts after a reset of an instance and its result (R146): the concatenated OUT windows of its
generation commands, and the state it ends in, whose words, CONV and VALID are the rest of the result. -/
def runResult (cfg : Config) (acts : List HostAct) : Option (List Byte × State) :=
  runFrom acts.length { State.reset with cfg := cfg, pending := acts } []

/-! Premises: the host's duties that the engine does not check (R124, R133). -/

/-- The host has supplied every byte of IN below n (R133 (e), 93 U6). -/
abbrev InputCovers (m : Memory) (n : Nat) : Prop := ∀ off < n, (m.read off).isSome = true

/-- An output window the host attached has at least n bytes (R133 (e), 93 U6). -/
abbrev OutputHolds (s : State) (n : Nat) : Prop := outRoom s n = true

/-- The block counter a State holds (R16, R17). -/
def counterOf (conv : Conv) (s : Regs Word) : Nat :=
  match conv with
  | .original => counter64 s
  | .rfc7539 => s.w12.toNat

/-- How many values the block counter has (R87). -/
def counterSize : Conv → Nat
  | .original => 2 ^ 64
  | .rfc7539 => 2 ^ 32

/-- The block counter does not wrap while nb blocks are emitted (R133 (d), 93 U3). -/
abbrev CounterRoom (conv : Conv) (s : Regs Word) (nb : Nat) : Prop := counterOf conv s + nb ≤ counterSize conv

/-- The key and the nonce of a State: its words but for the counter (R14 to R17). -/
def keyNonce (conv : Conv) (s : Regs Word) : Regs Word :=
  match conv with
  | .original => { s with w12 := 0, w13 := 0 }
  | .rfc7539 => { s with w12 := 0 }

/-- A use of a State: a number of blocks emitted from these words on under this convention. -/
structure KeystreamUse where
  conv : Conv
  words : Regs Word
  blocks : Nat
deriving DecidableEq, Repr

/-- The use has a block at this value of the counter (R84, R87). -/
def KeystreamUse.covers (u : KeystreamUse) (c : Nat) : Prop :=
  ∃ q < u.blocks, c = (counterOf u.conv u.words + q) % counterSize u.conv

/-- The host reuses no (key, nonce) pair over an overlapping counter range (R133 (c), R31, 93 U4): of any two uses of
one key and nonce under one convention, no value of the counter is in both. -/
def Fresh (uses : List KeystreamUse) : Prop :=
  uses.Pairwise fun u v => u.conv = v.conv → keyNonce u.conv u.words = keyNonce v.conv v.words →
    ∀ c, ¬ (u.covers c ∧ v.covers c)

/-- The uses the host makes of the engine in n steps from a state, its resets and new setups included: the premise
R133 (c) of a claim about those steps is Fresh of this list. -/
def usesFrom : Nat → State → List KeystreamUse
  | 0, _ => []
  | n + 1, s =>
    match step s with
    | .next t => ⟨s.conv, s.words, blocksEmitted s t⟩ :: usesFrom n t
    | .fault _ => []
    | .refused _ => []

/-! What a generation command leaves. -/

/-- The byte that belongs at offset off of OUT when the blocks of s are emitted (R34, R82, R108): byte off mod 64 of
KEYSTREAM(ADVANCE_N(S, CONV, off div 64)), in XOR mode xor the byte of IN at the same offset. -/
def blockByte (x : Bool) (rounds : Nat) (s : State) (off : Nat) : Option Byte :=
  match (keystream (advanceN s.conv (off / 64) s.words) rounds)[off % 64]? with
  | none => none
  | some k => if x then (s.inWin.read off).map (fun p => k ^^^ p) else some k

/-- t is s after nb blocks: the counter advanced by nb, the bytes of OUT below 64 nb those of the blocks, every other
byte of OUT (R34; with no output window attached the model's choice, log entry 3) and all the rest of the state as
before. -/
structure Emitted (x : Bool) (rounds nb : Nat) (s t : State) : Prop where
  words : t.words = advanceN s.conv nb s.words
  inside : ∀ off < 64 * nb, (t.outWin.read off).isSome = true ∧ t.outWin.read off = blockByte x rounds s off
  outside : ∀ off, 64 * nb ≤ off → t.outWin.read off = s.outWin.read off
  rest : t = { s with words := t.words, outWin := t.outWin }

/-! The four generation commands under one name. -/

/-- A generation command with its X and ROUNDS left open (R33). -/
inductive GenKind where
  | one
  | four
  | eight
  | dispatch (pref : Backend) (len : Nat)
deriving DecidableEq, Repr

/-- The command. -/
def GenKind.command (k : GenKind) (x : Bool) (rounds : Nat) : Instr :=
  match k with
  | .one => .gen1 x rounds
  | .four => .gen4 x rounds
  | .eight => .gen8 x rounds
  | .dispatch pref len => .dispatch pref x rounds len

/-- The backend the command requests (R106, R117). -/
def GenKind.backend : GenKind → Backend
  | .one => .scalar
  | .four => .v4
  | .eight => .v8
  | .dispatch pref _ => pref

/-- NB (R34). -/
def GenKind.blocks : GenKind → Nat
  | .one => 1
  | .four => 4
  | .eight => 8
  | .dispatch _ len => blockCount len

/-- Every acceptance check of a generation command passes (R121). -/
abbrev Ready (backend : Backend) (rounds : Nat) (s : State) : Prop :=
  roundsSupported s.cfg rounds = true ∧ backend.available s.cfg = true ∧ s.valid = true

/-- A 64-byte piece of an input window as a window of its own, from offset 0 (R99). -/
def inputPiece (whole : Memory) (q : Nat) : Memory :=
  match whole.readBytes (64 * q) 64 with
  | some bytes => Memory.ofBytes bytes
  | none => []

/-- n consecutive GEN1 commands whose windows are the consecutive 64-byte pieces, from piece q on, of one input window
(R99, R108), each with its output as a result: the state they leave and the bytes they write, if every one of them
completes. -/
def gen1Sequence (x : Bool) (rounds : Nat) (whole : Memory) : Nat → Nat → State → Option (State × List Byte)
  | 0, _, s => some (s, [])
  | n + 1, q, s =>
    match exec (.gen1 x rounds) { s with inWin := inputPiece whole q, outWin := [], outLen := none } with
    | .next t =>
      if t.fault then none
      else match t.outWin.readBytes 0 64, gen1Sequence x rounds whole n (q + 1) t with
        | some bytes, some (u, rest) => some (u, bytes ++ rest)
        | _, _ => none
    | .fault _ => none
    | .refused _ => none

/-- A sequence of generation commands, each with its X and ROUNDS, one after the other (R142): the state they leave, if
none of them faults or is refused. -/
def runCommands : List (GenKind × Bool × Nat) → State → Option State
  | [], s => some s
  | (k, x, rounds) :: rest, s =>
    match exec (k.command x rounds) s with
    | .next t => if t.fault then none else runCommands rest t
    | .fault _ => none
    | .refused _ => none

/-! Illegal command words. -/

/-- The command word is illegal, in the words of R58: OP is 0x0 or 0x8 to 0xF; a bit the format lists as zero is 1; the
command is DISPATCH and PREF = 3. -/
def IllegalWord (cw : Word) : Prop :=
  let op := (cw.extractLsb' 28 4).toNat
  op = 0 ∨ 8 ≤ op ∨
  (op = 1 ∧ cw.extractLsb' 10 18 ≠ 0) ∨
  ((op = 2 ∨ op = 7) ∧ cw.extractLsb' 0 28 ≠ 0) ∨
  ((op = 3 ∨ op = 4 ∨ op = 5) ∧
    (cw.extractLsb' 26 2 ≠ 0 ∨ cw.getLsbD 24 = true ∨ cw.extractLsb' 0 16 ≠ 0)) ∨
  (op = 6 ∧ (cw.getLsbD 24 = true ∨ cw.extractLsb' 0 16 ≠ 0 ∨ cw.extractLsb' 26 2 = 3))

/-- The host's oldest act is a packet that decodes to a command with the property p. -/
def NextCommand (s : State) (p : Instr → Prop) : Prop :=
  ∃ words rest i, s.pending = .packet words :: rest ∧ Sys2Proof.decode words = .command i ∧ p i

/-- The command is one of the two setups. -/
def IsSetup : Instr → Prop
  | .setupOrig _ _ _ _ _ _ => True
  | .setupRfc _ _ _ _ _ => True
  | .gen1 _ _ => False
  | .gen4 _ _ => False
  | .gen8 _ _ => False
  | .dispatch _ _ _ _ => False
  | .zeroize => False

/-- The host's oldest act is a reset. -/
def NextReset (s : State) : Prop := ∃ rest, s.pending = .reset :: rest

/-! Invariants. -/

/-- CAUSE is 0 when FAULT = 0 and one of 1 to 5 when FAULT = 1 (R22). -/
abbrev LatchLegal (s : State) : Prop :=
  (s.fault = false → s.cause = 0) ∧ (s.fault = true → 1 ≤ s.cause.toNat ∧ s.cause.toNat ≤ 5)

/-- Words 0 to 3 hold a tag (R14). -/
abbrev HasTag (v : Regs Word) (t : Tag) : Prop := v.w0 = t.t0 ∧ v.w1 = t.t1 ∧ v.w2 = t.t2 ∧ v.w3 = t.t3

/-- Words 8 to 11 repeat words 4 to 7 (R15). -/
abbrev Mirrored (v : Regs Word) : Prop := v.w8 = v.w4 ∧ v.w9 = v.w5 ∧ v.w10 = v.w6 ∧ v.w11 = v.w7

/-- VALID = 0 only with the words and CONV that reset and ZEROIZE leave; VALID = 1 only with words a setup lays out:
the 32-byte tag, or under ORIGINAL the 16-byte tag with a mirrored key (R14, R15, R20, R30, R64). -/
abbrev PopulatedLegal (s : State) : Prop :=
  (s.valid = false → s.words = Regs.all 0 ∧ s.conv = .original) ∧
  (s.valid = true → HasTag s.words tag32 ∨ (HasTag s.words tag16 ∧ Mirrored s.words ∧ s.conv = .original))

/-- An attached output window has a byte at every offset below its length and at no other (R33, R34). -/
def OutFilled (s : State) : Prop :=
  ∀ len, s.outLen = some len → ∀ off, (s.outWin.read off).isSome = true ↔ off < len

/-- The invariant every step keeps. -/
abbrev State.Inv (s : State) : Prop :=
  s.inWin.wf ∧ s.outWin.wf ∧ OutFilled s ∧ LatchLegal s ∧ PopulatedLegal s

end Sys2Proof.Machine
end

