-- ==== Sys2Proof/Certificates/Slice0/Obligations.lean ====
section
/-! DEFINITION. The statements for the provers: what the engine does, rule by rule. Each says which rule of spec/ it
formalises; a clause that rests on the model's own choice names its log entry. -/

open Sys2Proof Sys2Proof.Machine

/-! Packets (30_encoding). -/

/-- 30_encoding R50 to R54, R56, R57: no operand of any command is lost in its packet. -/
def Obligations.DecodeOfEncodeIsTheCommand : Prop :=
  ∀ i : Instr, WellFormed i = true → decode (encode i) = .command i

/-- 30_encoding R58, R59, R60: a packet that decodes is exactly the packet of the command it decodes to, so no bit of a
legal packet is ignored by the decoder and every command it gives is well-formed. -/
def Obligations.EncodeOfDecodeIsThePacket : Prop :=
  ∀ (packet : List Word) (i : Instr), decode packet = .command i → WellFormed i = true ∧ encode i = packet

/-- 30_encoding R58: an illegal command word faults with ILLEGAL_COMMAND and has no other effect; every other command
word of a whole packet decodes to a command, a bad KEYBITS or ROUNDS among them, which then fault with their own
causes. -/
def Obligations.IllegalWordFaultsAndLegalWordDecodes : Prop :=
  ∀ (cw : Word) (operands : List Word) (s : State) (rest : List HostAct),
    s.pending = .packet (cw :: operands) :: rest → s.fault = false →
    operands.length + 1 = packetWords (cw.extractLsb' 28 4).toNat →
    (IllegalWord cw →
      step s = .next { s with pending := rest, fault := true, cause := 4 }) ∧
    (¬ IllegalWord cw → ∃ i, decode (cw :: operands) = .command i) ∧
    (¬ IllegalWord cw → cw.extractLsb' 28 4 = 1 → cw.extractLsb' 0 10 ≠ 128 → cw.extractLsb' 0 10 ≠ 256 →
      step s = .next { s with pending := rest, fault := true, cause := 1 }) ∧
    (¬ IllegalWord cw → 3 ≤ (cw.extractLsb' 28 4).toNat → (cw.extractLsb' 28 4).toNat ≤ 6 →
      roundsSupported s.cfg (cw.extractLsb' 16 8).toNat = false →
      step s = .next { s with pending := rest, fault := true, cause := 2 })

/-- 30_encoding R55: the length of a packet is told by OP alone: 13 words for OP 1 and 2, 3 for OP 6, 1 otherwise. -/
def Obligations.CommandsHaveTheLengthOpTells : Prop :=
  (∀ cw : Word, packetWords (opField cw) =
    if cw.extractLsb' 28 4 = 1 ∨ cw.extractLsb' 28 4 = 2 then 13
    else if cw.extractLsb' 28 4 = 6 then 3 else 1) ∧
  ∀ (cw : Word) (operands : List Word) (i : Instr),
    decode (cw :: operands) = .command i → operands.length + 1 = packetWords (opField cw)

/-- 30_encoding R49 to R54: no command word has the fixed bits of two rows of the opcode map. -/
def Obligations.OpcodeRowsDoNotOverlap : Prop :=
  ∀ r ∈ opcodeMap, ∀ r' ∈ opcodeMap, ∀ cw : Word, r.fits cw = true → r'.fits cw = true → r = r'

/-- 95_test_vectors V9: a few of the packets written out from the encoding decode to what they stand for. -/
def Obligations.WrittenOutPacketsDecode : Prop :=
  decode [0x32140000] = .command (.gen1 true 20) ∧
  decode [0x40080000] = .command (.gen4 false 8) ∧
  decode [0x520C0000] = .command (.gen8 true 12) ∧
  decode [0x6A080000, 0x00000340, 0x00000001] = .command (.dispatch .v8 true 8 0x100000340) ∧
  decode [0x70000000] = .command .zeroize ∧
  decode [0x100000C0, 1, 2, 3, 4, 5, 6, 7, 8, 9, 10, 11, 12] =
    .command (.setupOrig 192 ⟨1, 2, 3, 4, 5, 6, 7, 8⟩ 9 10 11 12) ∧
  decode [0x20000000, 1, 2, 3, 4, 5, 6, 7, 8, 9, 10, 11, 12] =
    .command (.setupRfc ⟨1, 2, 3, 4, 5, 6, 7, 8⟩ 9 10 11 12)

/-! The step (00_scope R11, 60_exceptions R121, R123). -/

/-- 00_scope R11, 60_exceptions R121: a packet that decodes is executed, with the host's later acts kept. -/
def Obligations.StepRunsTheDecodedCommand : Prop :=
  ∀ (s : State) (packet : List Word) (rest : List HostAct) (i : Instr),
    s.pending = .packet packet :: rest → s.fault = false → decode packet = .command i →
    step s = exec i { s with pending := rest }

/-- Log entry 2: a table row's word placed at the command port is the command the very next step runs. -/
def Obligations.PlacedWordIsTheNextCommand : Prop :=
  ∀ (s : State) (nbits w : Nat) (i : Instr), s.fault = false → decodeTableWord nbits w = some i →
    step (s.withFetchWord nbits w) = exec i s

/-- 70_reset_and_hazards R131: with no act of the host to come the engine waits and nothing changes; and none is to come
at State.reset. That the host's acts are a list in the state and that it is empty there is the model's choice, log
entry 2. -/
def Obligations.EngineWaitsForAPacket : Prop :=
  (∀ s : State, s.pending = [] → step s = .next s) ∧ State.reset.pending = []

/-- 60_exceptions R123: while FAULT = 1 a packet of any words changes nothing, not even CAUSE; every index of the read
port still reads; nothing the host can do but a reset changes FAULT, CAUSE, S, CONV or VALID; a reset clears FAULT. -/
def Obligations.HaltedEngineAcceptsNothingButReset : Prop :=
  ∀ s : State, s.fault = true →
    (∀ packet rest, s.pending = .packet packet :: rest → step s = .next { s with pending := rest }) ∧
    (∀ index, index ≤ 16 → (readPort s index).isSome = true) ∧
    (∀ act rest t, s.pending = act :: rest → act ≠ .reset → step s = .next t →
      t.fault = true ∧ t.cause = s.cause ∧ t.words = s.words ∧ t.conv = s.conv ∧ t.valid = s.valid) ∧
    (∀ rest, s.pending = .reset :: rest → ∃ t, step s = .next t ∧ t.fault = false)

/-- 60_exceptions R121: the order of the checks on a presented packet, first failure wins. -/
def Obligations.AcceptanceChecksInOrder : Prop :=
  ∀ (s : State) (packet : List Word) (rest : List HostAct), s.pending = .packet packet :: rest →
    (s.fault = true → step s = .next { s with pending := rest }) ∧
    (s.fault = false →
      (∀ r, decode packet = .rejected r → r.isIllegal = true →
        step s = .next (raiseFault .illegalCommand { s with pending := rest })) ∧
      (∀ keybits key c0 c1 n0 n1, decode packet = .command (.setupOrig keybits key c0 c1 n0 n1) →
        keybits ≠ 128 → keybits ≠ 256 →
        step s = .next (raiseFault .invalidKeybits { s with pending := rest })) ∧
      (∀ (k : GenKind) x rounds, decode packet = .command (k.command x rounds) →
        (roundsSupported s.cfg rounds = false →
          step s = .next (raiseFault .invalidRounds { s with pending := rest })) ∧
        (roundsSupported s.cfg rounds = true → k.backend.available s.cfg = false →
          step s = .next (raiseFault .backendUnavailable { s with pending := rest })) ∧
        (roundsSupported s.cfg rounds = true → k.backend.available s.cfg = true → s.valid = false →
          step s = .next (raiseFault .stateNotSet { s with pending := rest }))))

/-- 60_exceptions R118: a fault, whichever command raises it, sets FAULT and CAUSE and changes nothing else: no word, no
CONV, no VALID, no byte of either window; and no byte of IN is read, so the outcome is the same for any input window. -/
def Obligations.FaultChangesTheLatchOnly : Prop :=
  ∀ s t : State, s.fault = false → step s = .next t → t.fault = true →
    (∃ c : Cause, t = { s with pending := s.pending.tail, fault := true, cause := c.code }) ∧
    ∀ m : Memory, step { s with inWin := m } = .next { t with inWin := m }

/-- Log entry 5: words that are no packet, the empty presentation among them, are refused, unless the engine is halted.
The model's choice: R47 and R55 give such a delivery no meaning. -/
def Obligations.WordsThatAreNoPacketAreRefused : Prop :=
  ∀ (s : State) (packet : List Word) (rest : List HostAct),
    s.pending = .packet packet :: rest → s.fault = false →
    (∀ cw operands, packet = cw :: operands → operands.length + 1 ≠ packetWords (opField cw)) →
    step s = .refused .notAPacket

/-! Status, the read port, the windows and reset (10_state R22, R23, R32; 20_memory R33; R131). -/

/-- 10_state R22: the bits of STATUS, and the legal values of CAUSE: 0 when FAULT = 0, one of 1 to 5 when FAULT = 1,
after reset and after every step from a state where that holds. -/
def Obligations.StatusBits : Prop :=
  (∀ s : State,
    (statusWord s).getLsbD 0 = s.valid ∧ (statusWord s).getLsbD 1 = s.fault ∧
    (statusWord s).getLsbD 2 = s.conv.bit ∧ (statusWord s).getLsbD 3 = false ∧
    (statusWord s).extractLsb' 4 4 = s.cause ∧ (statusWord s).extractLsb' 8 24 = 0) ∧
  LatchLegal State.reset ∧ ∀ s t : State, LatchLegal s → step s = .next t → LatchLegal t

/-- 10_state R23: index 0 to 15 returns S, index 16 STATUS, no other index exists (the model stops there); a read has no
side effect; and what the host does other than present a packet or reset writes no word and no control field. -/
def Obligations.ReadPortReadsAndChangesNothing : Prop :=
  ∀ s : State,
    (∀ index, index < 16 → readPort s index = s.words.toList[index]?) ∧
    readPort s 16 = some (statusWord s) ∧
    (∀ index, 16 < index → readPort s index = none) ∧
    (∀ index rest, s.pending = .read index :: rest → index ≤ 16 → step s = .next { s with pending := rest }) ∧
    (∀ index rest, s.pending = .read index :: rest → 16 < index → step s = .fault (.noSuchReadIndex index)) ∧
    (∀ act rest t, s.pending = act :: rest → (∀ packet, act ≠ .packet packet) → act ≠ .reset → step s = .next t →
      t.words = s.words ∧ t.conv = s.conv ∧ t.valid = s.valid ∧ t.fault = s.fault ∧ t.cause = s.cause)

/-- 20_memory R33: an attached window holds the bytes the host gives, from offset 0 and none beyond; the two windows are
distinct spaces. The length of an attached output window is that of the bytes (log entry 3). -/
def Obligations.AttachedWindowHoldsItsBytes : Prop :=
  ∀ (s : State) (bytes : List Byte) (rest : List HostAct),
    (s.pending = .attachIn bytes :: rest → ∃ t, step s = .next t ∧
      (∀ off, t.inWin.read off = bytes[off]?) ∧ t = { s with inWin := t.inWin, pending := rest }) ∧
    (s.pending = .attachOut bytes :: rest → ∃ t, step s = .next t ∧
      (∀ off, t.outWin.read off = bytes[off]?) ∧ t = { s with outWin := t.outWin, outLen := some bytes.length, pending := rest })

/-- 10_state R32: what reset leaves, and that on every instance every generation command faults there until a setup. -/
def Obligations.ResetLeavesZeros : Prop :=
  State.reset.words = ⟨0, 0, 0, 0, 0, 0, 0, 0, 0, 0, 0, 0, 0, 0, 0, 0⟩ ∧ State.reset.conv = .original ∧
  State.reset.valid = false ∧ State.reset.fault = false ∧ State.reset.cause = 0 ∧ statusWord State.reset = 0 ∧
  State.reset.inWin = [] ∧ State.reset.outWin = [] ∧ State.reset.outLen = none ∧
  ∀ (cfg : Config) (k : GenKind) (x : Bool) (rounds : Nat), ∃ c : Cause,
    exec (k.command x rounds) { State.reset with cfg := cfg } =
      .next { State.reset with cfg := cfg, fault := true, cause := c.code }

/-- 70_reset_and_hazards R131: a reset at any time, halted or not, leaves the reset values and an engine that waits for
the host; the host's later acts and the instance stay (log entries 1, 2). -/
def Obligations.ResetActRestoresResetValues : Prop :=
  ∀ (s : State) (rest : List HostAct), s.pending = .reset :: rest →
    step s = .next { State.reset with cfg := s.cfg, pending := rest }

/-- 00_scope R6: an instance's ROUNDS_SUPPORTED is any predicate that implies an even count from 2 to 254 and accepts 8,
12 and 20, and nothing else; the default accepts every such count. -/
def Obligations.RoundsSupportedIsAnyLegalPredicate : Prop :=
  (∀ (cfg : Config) (rounds : Nat), roundsSupported cfg rounds = true →
    rounds % 2 = 0 ∧ 2 ≤ rounds ∧ rounds ≤ 254) ∧
  (∀ cfg : Config, roundsSupported cfg 8 = true ∧ roundsSupported cfg 12 = true ∧ roundsSupported cfg 20 = true) ∧
  (∀ p : Nat → Bool, (∀ rounds, p rounds = true → rounds % 2 = 0 ∧ 2 ≤ rounds ∧ rounds ≤ 254) →
    p 8 = true → p 12 = true → p 20 = true → ∃ cfg : Config, ∀ rounds, roundsSupported cfg rounds = p rounds) ∧
  ∀ rounds, roundsSupported Config.default rounds = decide (rounds % 2 = 0 ∧ 2 ≤ rounds ∧ rounds ≤ 254)

/-! Setup (40_setup). -/

/-- 40_setup R63: SETUP.ORIG with 256 and with 128, from any state, and its fault for every other KEYBITS. -/
def Obligations.SetupOrigPopulatesTheState : Prop :=
  ∀ (k : KeyWords) (c0 c1 n0 n1 : Word) (s : State),
    exec (.setupOrig 256 k c0 c1 n0 n1) s = .next
      { s with words := ⟨0x61707865, 0x3320646E, 0x79622D32, 0x6B206574, k.k0, k.k1, k.k2, k.k3,
                          k.k4, k.k5, k.k6, k.k7, c0, c1, n0, n1⟩, conv := .original, valid := true } ∧
    exec (.setupOrig 128 k c0 c1 n0 n1) s = .next
      { s with words := ⟨0x61707865, 0x3120646E, 0x79622D36, 0x6B206574, k.k0, k.k1, k.k2, k.k3,
                          k.k0, k.k1, k.k2, k.k3, c0, c1, n0, n1⟩, conv := .original, valid := true } ∧
    ∀ keybits, keybits ≠ 128 → keybits ≠ 256 →
      exec (.setupOrig keybits k c0 c1 n0 n1) s = .next { s with fault := true, cause := 1 }

/-- 40_setup R64: SETUP.RFC always completes. -/
def Obligations.SetupRfcPopulatesTheState : Prop :=
  ∀ (k : KeyWords) (c0 n0 n1 n2 : Word) (s : State),
    exec (.setupRfc k c0 n0 n1 n2) s = .next
      { s with words := ⟨0x61707865, 0x3320646E, 0x79622D32, 0x6B206574, k.k0, k.k1, k.k2, k.k3,
                          k.k4, k.k5, k.k6, k.k7, c0, n0, n1, n2⟩, conv := .rfc7539, valid := true }

/-- 40_setup R65: ZEROIZE; FAULT, CAUSE and both windows stay; where nothing is set up it changes nothing; after it a
generation command that passes the earlier checks faults with STATE_NOT_SET. -/
def Obligations.ZeroizeDestroysTheState : Prop :=
  ∀ s : State,
    exec .zeroize s = .next
      { s with words := ⟨0, 0, 0, 0, 0, 0, 0, 0, 0, 0, 0, 0, 0, 0, 0, 0⟩, conv := .original, valid := false } ∧
    (PopulatedLegal s → s.valid = false → exec .zeroize s = .next s) ∧
    ∀ (k : GenKind) (x : Bool) (rounds : Nat) (t : State), exec .zeroize s = .next t →
      roundsSupported s.cfg rounds = true → k.backend.available s.cfg = true →
      exec (k.command x rounds) t = .next { t with fault := true, cause := 5 }

/-- 10_state R14 to R18, 30_encoding R56: a setup given byte strings leaves a State whose memory image is the tag, the
key (twice for 128 bits), the counter and the nonce, each as the bytes given or little-endian. -/
def Obligations.SetupFromBytesGivesTheMemoryImage : Prop :=
  ∀ (key nonce : List Byte) (c : Nat) (s : State),
    (key.length = 32 → nonce.length = 8 → c < 2 ^ 64 → ∃ i t, setupOrigOf 256 key nonce (some c) = some i ∧
      exec i s = .next t ∧ serialise t.words =
        [0x65, 0x78, 0x70, 0x61, 0x6e, 0x64, 0x20, 0x33, 0x32, 0x2d, 0x62, 0x79, 0x74, 0x65, 0x20, 0x6b]
          ++ key ++ (List.range 8).map (fun b => BitVec.ofNat 8 (c / 2 ^ (8 * b))) ++ nonce) ∧
    (key.length = 16 → nonce.length = 8 → c < 2 ^ 64 → ∃ i t, setupOrigOf 128 key nonce (some c) = some i ∧
      exec i s = .next t ∧ serialise t.words =
        [0x65, 0x78, 0x70, 0x61, 0x6e, 0x64, 0x20, 0x31, 0x36, 0x2d, 0x62, 0x79, 0x74, 0x65, 0x20, 0x6b]
          ++ key ++ key ++ (List.range 8).map (fun b => BitVec.ofNat 8 (c / 2 ^ (8 * b))) ++ nonce) ∧
    (key.length = 32 → nonce.length = 12 → c < 2 ^ 32 → ∃ i t, setupRfcOf key nonce (some c) = some i ∧
      exec i s = .next t ∧ serialise t.words =
        [0x65, 0x78, 0x70, 0x61, 0x6e, 0x64, 0x20, 0x33, 0x32, 0x2d, 0x62, 0x79, 0x74, 0x65, 0x20, 0x6b]
          ++ key ++ (List.range 4).map (fun b => BitVec.ofNat 8 (c / 2 ^ (8 * b))) ++ nonce)

/-- 10_state R31: from a valid State, whatever the host does but a setup, ZEROIZE or reset, words 0 to 11 keep their
values, words 14 and 15 too, and word 13 under RFC7539. -/
def Obligations.KeyNonceAndConstantsNeverChange : Prop :=
  ∀ s t : State, s.valid = true → step s = .next t →
    ¬ NextCommand s IsSetup → ¬ NextCommand s (fun i => i = .zeroize) → ¬ NextReset s →
    t.words = { s.words with w12 := t.words.w12, w13 := t.words.w13 } ∧
    (s.conv = .rfc7539 → t.words.w13 = s.words.w13)

/-- 10_state R19, R20: VALID goes to 1 only by a setup and to 0 only by ZEROIZE or reset, and CONV changes only by a
setup, ZEROIZE or reset. -/
def Obligations.ValidAndConvChangeOnlyBySetupZeroizeReset : Prop :=
  ∀ s t : State, step s = .next t →
    (s.valid = false → t.valid = true → NextCommand s IsSetup) ∧
    (s.valid = true → t.valid = false → NextCommand s (fun i => i = .zeroize) ∨ NextReset s) ∧
    (t.conv ≠ s.conv → NextCommand s IsSetup ∨ NextCommand s (fun i => i = .zeroize) ∨ NextReset s)

/-! The round transform (41_round_transform). -/

/-- 41_round_transform R70: bit i of rotl32(x, n) is bit (i - n) mod 32 of x. -/
def Obligations.RotlMovesEveryBit : Prop :=
  ∀ (x : Word) (n : Nat), 1 ≤ n → n ≤ 31 →
    rotl32 x n = BitVec.ofNat 32 (x.toNat * 2 ^ n % 2 ^ 32 + x.toNat / 2 ^ (32 - n)) ∧
    ∀ i < 32, (rotl32 x n).getLsbD i = x.getLsbD ((i + 32 - n) % 32)

/-- 41_round_transform R71: the eight steps of QR, with the library's rotation in place of rotl32. -/
def Obligations.QuarterRoundSteps : Prop :=
  ∀ a0 b0 c0 d0 : Word,
    let a1 := a0 + b0
    let d1 := (d0 ^^^ a1).rotateLeft 16
    let c1 := c0 + d1
    let b1 := (b0 ^^^ c1).rotateLeft 12
    let a2 := a1 + b1
    let d2 := (d1 ^^^ a2).rotateLeft 8
    let c2 := c1 + d2
    let b2 := (b1 ^^^ c2).rotateLeft 7
    quarterRound wordArith ⟨a0, b0, c0, d0⟩ = ⟨a2, b2, c2, d2⟩

/-- 41_round_transform R78: the inverse undoes QR on both sides, and the rounds and the permutation are bijections on
sixteen words. -/
def Obligations.RoundTransformIsBijective : Prop :=
  (∀ q : Quad Word, quarterRoundInverse (quarterRound wordArith q) = q ∧
    quarterRound wordArith (quarterRoundInverse q) = q) ∧
  Function.Bijective (columnRound wordArith) ∧ Function.Bijective (diagonalRound wordArith) ∧
  Function.Bijective (doubleRound wordArith) ∧ ∀ rounds, Function.Bijective (fun s => permute s rounds)

/-- 41_round_transform R72, R73, R76: column k is words k, 4 + k, 8 + k, 12 + k and diagonal k is words
(k, 4 + (k+1) mod 4, 8 + (k+2) mod 4, 12 + (k+3) mod 4), each quarter-rounded in place with its four positions as
a, b, c, d. R74 (and 70_reset_and_hazards R134): a round pair is the diagonal round of the column round, and not the
other way round. R75: the permutation at r rounds is r / 2 round pairs one after the other, and an instance supports
only even counts from 2 on. -/
def Obligations.ColumnsAndDiagonalsOfTheMatrix : Prop :=
  (∀ w : Regs Word,
    doubleRound wordArith w = diagonalRound wordArith (columnRound wordArith w) ∧
    permute w 0 = w ∧
    (∀ rounds, permute w (rounds + 2) = permute (diagonalRound wordArith (columnRound wordArith w)) rounds) ∧
    ∀ rounds, permute w rounds = (doubleRound wordArith)^[rounds / 2] w) ∧
  (∃ w : Regs Word, columnRound wordArith (diagonalRound wordArith w) ≠ doubleRound wordArith w) ∧
  (∀ (cfg : Config) (rounds : Nat), roundsSupported cfg rounds = true → rounds % 2 = 0 ∧ 2 ≤ rounds) ∧
  ∀ (w : Regs Word) (k : Nat) (a b c d : Word), k < 4 →
    (w.toList[k]? = some a → w.toList[4 + k]? = some b → w.toList[8 + k]? = some c → w.toList[12 + k]? = some d →
      let q := quarterRound wordArith ⟨a, b, c, d⟩
      let v := (columnRound wordArith w).toList
      v[k]? = some q.a ∧ v[4 + k]? = some q.b ∧ v[8 + k]? = some q.c ∧ v[12 + k]? = some q.d) ∧
    (w.toList[k]? = some a → w.toList[4 + (k + 1) % 4]? = some b → w.toList[8 + (k + 2) % 4]? = some c →
      w.toList[12 + (k + 3) % 4]? = some d →
      let q := quarterRound wordArith ⟨a, b, c, d⟩
      let v := (diagonalRound wordArith w).toList
      v[k]? = some q.a ∧ v[4 + (k + 1) % 4]? = some q.b ∧ v[8 + (k + 2) % 4]? = some q.c ∧
        v[12 + (k + 3) % 4]? = some q.d)

/-- 41_round_transform R71, R77 and 95_test_vectors V6: zero is a fixed point of the permutation at every round count. -/
def Obligations.PermuteFixesZero : Prop :=
  ∀ rounds : Nat, permute (Regs.all 0) rounds = Regs.all 0

/-! Scalar generation (42_block_scalar). -/

/-- 42_block_scalar R81, 20_memory R35: byte 4j + b of a block is bits 8b + 7 to 8b of word j. 42_block_scalar R80: in
a keystream block that word is the sum modulo 2^32 of word j after the permutation and word j before it. -/
def Obligations.SerialisationIsLittleEndian : Prop :=
  (∀ (o : Regs Word) (j b : Nat) (w : Word), j < 16 → b < 4 → o.toList[j]? = some w →
    (serialise o).length = 64 ∧ (serialise o)[4 * j + b]? = some (w.extractLsb' (8 * b) 8)) ∧
  ∀ (s : Regs Word) (rounds j b : Nat) (p w : Word), j < 16 → b < 4 →
    (permute s rounds).toList[j]? = some p → s.toList[j]? = some w →
    (keystream s rounds).length = 64 ∧
    (keystream s rounds)[4 * j + b]? =
      some ((BitVec.ofNat 32 ((p.toNat + w.toNat) % 2 ^ 32)).extractLsb' (8 * b) 8)

/-- 00_scope R9: LE32 and BYTES32 are inverse. -/
def Obligations.LittleEndianWordsAndBytesAreInverse : Prop :=
  (∀ b0 b1 b2 b3 : Byte, bytes32 (le32 b0 b1 b2 b3) = [b0, b1, b2, b3]) ∧
  ∀ w : Word, le32Groups (bytes32 w) = [w]

/-- 42_block_scalar R83: ADVANCE, word by word. -/
def Obligations.AdvanceCarriesUnderOriginalOnly : Prop :=
  ∀ s : Regs Word,
    advance .original s = { s with w12 := s.w12 + 1, w13 := if s.w12 = 0xFFFFFFFF then s.w13 + 1 else s.w13 } ∧
    advance .rfc7539 s = { s with w12 := s.w12 + 1 }

/-- 42_block_scalar R84: ADVANCE_N is ADVANCE n times, its closed form, and that advances add up. -/
def Obligations.AdvanceNClosedForm : Prop :=
  ∀ (s : Regs Word) (n : Nat),
    (∀ conv : Conv, advanceN conv 0 s = s ∧ advanceN conv (n + 1) s = advance conv (advanceN conv n s)) ∧
    (let c' := (2 ^ 32 * s.w13.toNat + s.w12.toNat + n) % 2 ^ 64
     advanceN .original n s =
      { s with w12 := BitVec.ofNat 32 (c' % 2 ^ 32), w13 := BitVec.ofNat 32 (c' / 2 ^ 32) }) ∧
    advanceN .rfc7539 n s = { s with w12 := s.w12 + BitVec.ofNat 32 n } ∧
    ∀ (conv : Conv) (a b : Nat), advanceN conv b (advanceN conv a s) = advanceN conv (a + b) s

/-- 42_block_scalar R87, 93 U3, U4: after 2^64 advances under ORIGINAL, 2^32 under RFC7539, the State is back where it
was; before a wrap (R133 (d)) no two advances give the same State; and of uses that reuse no key and nonce over an
overlapping counter range (R133 (c)), no two of one convention start a block from the same State. Of the keystream bytes
themselves, and of uses under different conventions, it says nothing. -/
def Obligations.CounterWrapsAndIsDistinctBefore : Prop :=
  (∀ s : Regs Word,
    advanceN .original (2 ^ 64) s = s ∧ advanceN .rfc7539 (2 ^ 32) s = s ∧
    ∀ (conv : Conv) (nb p q : Nat), CounterRoom conv s nb → p < nb → q < nb →
      advanceN conv p s = advanceN conv q s → p = q) ∧
  ∀ uses : List KeystreamUse, Fresh uses →
    uses.Pairwise fun u v => u.conv = v.conv → ∀ p < u.blocks, ∀ q < v.blocks,
      advanceN u.conv p u.words ≠ advanceN v.conv q v.words

/-- 42_block_scalar R85, R86: GEN1 completes with one block on every accepted state whose windows are as R133 (e)
asks. With no output window
attached, that the other bytes of OUT stay is the model's choice, log entry 3. -/
def Obligations.Gen1EmitsOneBlock : Prop :=
  ∀ (x : Bool) (rounds : Nat) (s : State), roundsSupported s.cfg rounds = true → s.valid = true →
    OutputHolds s 64 → (x = true → InputCovers s.inWin 64) →
    ∃ t, exec (.gen1 x rounds) s = .next t ∧ Emitted x rounds 1 s t

/-- 42_block_scalar R88: XOR mode is its own inverse from the same State, and equals the raw keystream xored by hand;
the input has no influence on the State. For GEN1, GEN4, GEN8 and DISPATCH. -/
def Obligations.XorModeIsInvolutionAndHandXor : Prop :=
  ∀ (k : GenKind) (rounds : Nat) (s t : State), Ready k.backend rounds s →
    exec (k.command true rounds) s = .next t →
    (∀ u v : State, u.words = s.words → u.conv = s.conv → Ready k.backend rounds u →
      (∀ off < 64 * k.blocks, u.inWin.read off = t.outWin.read off) →
      exec (k.command true rounds) u = .next v →
      ∀ off < 64 * k.blocks, v.outWin.read off = s.inWin.read off) ∧
    (∀ r : State, exec (k.command false rounds) s = .next r →
      r.words = t.words ∧
      ∀ off < 64 * k.blocks, ∃ a p, r.outWin.read off = some a ∧ s.inWin.read off = some p ∧
        t.outWin.read off = some (a ^^^ p))

/-- 20_memory R34: with X = 0 no byte of IN is read: the outcome is the same for any input window. With X = 1 only the
bytes below 64 NB are. For GEN1, GEN4, GEN8 and DISPATCH. -/
def Obligations.InputIsReadOnlyWhereTheCommandSays : Prop :=
  ∀ (k : GenKind) (rounds : Nat) (s t : State) (m : Memory),
    (exec (k.command false rounds) s = .next t →
      exec (k.command false rounds) { s with inWin := m } = .next { t with inWin := m }) ∧
    ((∀ off < 64 * k.blocks, m.read off = s.inWin.read off) → exec (k.command true rounds) s = .next t →
      exec (k.command true rounds) { s with inWin := m } = .next { t with inWin := m })

/-- Log entry 3, 93 U6: an accepted generation command in XOR mode whose input window lacks a byte it reads is refused
by name. The model's choice: the spec says refuse. -/
def Obligations.ShortInputWindowIsRefused : Prop :=
  ∀ (k : GenKind) (rounds : Nat) (s : State), Ready k.backend rounds s →
    ¬ InputCovers s.inWin (64 * k.blocks) → exec (k.command true rounds) s = .refused .inputWindowShort

/-- Log entry 3, 93 U6, 60_exceptions R124: an accepted generation command, in either mode, for which the host attached
an output window of fewer than 64 NB bytes is refused by name, and a window of 64 NB bytes is long enough. The model's
choice: the spec says refuse. -/
def Obligations.ShortOutputWindowIsRefused : Prop :=
  ∀ (k : GenKind) (x : Bool) (rounds len : Nat) (s : State), Ready k.backend rounds s →
    (x = true → InputCovers s.inWin (64 * k.blocks)) → s.outLen = some len →
    (len < 64 * k.blocks → exec (k.command x rounds) s = .refused .outputWindowShort) ∧
    (64 * k.blocks ≤ len → ∃ t, exec (k.command x rounds) s = .next t ∧ t.fault = s.fault)

/-! Wide generation (43_block_wide). -/

/-- 43_block_wide R92, R93: after VLOAD lane i holds exactly ADVANCE_N(S, CONV, i), whatever the counter. -/
def Obligations.VloadLanesAreAdvancedStates : Prop :=
  ∀ (n : Nat) (conv : Conv) (s : Regs Word) (i : Fin n), lane (vload n conv s) i = advanceN conv i.val s

/-- 43_block_wide R94: the vector rounds permute every lane, so that after VLOAD and the rounds lane i holds
PERMUTE(ADVANCE_N(S, CONV, i), ROUNDS). -/
def Obligations.VectorRoundsPermuteEveryLane : Prop :=
  ∀ (n : Nat) (rounds : Nat) (i : Fin n),
    (∀ v : Regs (Vec n), lane (permuteOver (vecArith n) v rounds) i = permute (lane v i) rounds) ∧
    ∀ (conv : Conv) (s : Regs Word),
      lane (permuteOver (vecArith n) (vload n conv s) rounds) i = permute (advanceN conv i.val s) rounds

/-- 43_block_wide R95, R96, R98: the blocks of one wide invocation are, in counter order, the keystream blocks of the
advanced States. -/
def Obligations.WideBlocksAreKeystreamsInCounterOrder : Prop :=
  ∀ (n : Nat) (conv : Conv) (s : Regs Word) (rounds : Nat),
    wideBlocks n conv s rounds = (List.range n).map (fun i => keystream (advanceN conv i s) rounds)

/-- 43_block_wide R100: GEN4 completes with four blocks on every accepted state whose windows are as R133 (e) asks.
With no output window attached, that the other bytes of OUT stay is the model's choice, log entry 3. -/
def Obligations.Gen4EmitsFourBlocks : Prop :=
  ∀ (x : Bool) (rounds : Nat) (s : State), roundsSupported s.cfg rounds = true → s.cfg.hasV4 = true →
    s.valid = true → OutputHolds s 256 → (x = true → InputCovers s.inWin 256) →
    ∃ t, exec (.gen4 x rounds) s = .next t ∧ Emitted x rounds 4 s t

/-- 43_block_wide R101: GEN8 completes with eight blocks on every accepted state whose windows are as R133 (e) asks;
HAS_V4 plays no part (R102). With no output window
attached, that the other bytes of OUT stay is the model's choice, log entry 3. -/
def Obligations.Gen8EmitsEightBlocks : Prop :=
  ∀ (x : Bool) (rounds : Nat) (s : State), roundsSupported s.cfg rounds = true → s.cfg.hasV8 = true →
    s.valid = true → OutputHolds s 512 → (x = true → InputCovers s.inWin 512) →
    ∃ t, exec (.gen8 x rounds) s = .next t ∧ Emitted x rounds 8 s t

/-- 43_block_wide R102: a wide backend the instance lacks is never replaced: GEN4, GEN8 and DISPATCH with that
preference change the fault latch only, whatever LEN is. -/
def Obligations.MissingBackendFaults : Prop :=
  ∀ (x : Bool) (rounds len : Nat) (s : State), roundsSupported s.cfg rounds = true →
    (s.cfg.hasV4 = false →
      exec (.gen4 x rounds) s = .next { s with fault := true, cause := 3 } ∧
      exec (.dispatch .v4 x rounds len) s = .next { s with fault := true, cause := 3 }) ∧
    (s.cfg.hasV8 = false →
      exec (.gen8 x rounds) s = .next { s with fault := true, cause := 3 } ∧
      exec (.dispatch .v8 x rounds len) s = .next { s with fault := true, cause := 3 })

/-- 43_block_wide R99: one invocation of a wide backend writes the bytes, and leaves the State, of N consecutive GEN1
commands whose windows are the consecutive 64-byte pieces of the same windows, at every counter value. -/
def Obligations.WideBackendEqualsSequentialScalar : Prop :=
  ∀ (k : GenKind) (x : Bool) (rounds : Nat) (s : State), k = .four ∨ k = .eight →
    s.fault = false → Ready k.backend rounds s → OutputHolds s (64 * k.blocks) →
    (x = true → InputCovers s.inWin (64 * k.blocks)) →
    ∃ t u bytes, exec (k.command x rounds) s = .next t ∧
      gen1Sequence x rounds s.inWin k.blocks 0 s = some (u, bytes) ∧
      t.outWin.readBytes 0 (64 * k.blocks) = some bytes ∧
      t.words = u.words ∧ t.conv = u.conv ∧ t.valid = u.valid ∧ t.fault = u.fault ∧ t.cause = u.cause

/-! The dispatcher (44_dispatch). -/

/-- 44_dispatch R104: DISPATCH completes with floor(LEN / 64) blocks on every accepted state whose windows are as
R133 (e) asks, whatever the preference. With no output window
attached, that the other bytes of OUT stay is the model's choice, log entry 3. -/
def Obligations.DispatchEmitsWholeBlocks : Prop :=
  ∀ (pref : Backend) (x : Bool) (rounds len : Nat) (s : State), Ready pref rounds s →
    OutputHolds s (64 * (len / 64)) → (x = true → InputCovers s.inWin (64 * (len / 64))) →
    ∃ t, exec (.dispatch pref x rounds len) s = .next t ∧ Emitted x rounds (len / 64) s t

/-- 44_dispatch R108: the net effect: the bytes and the State of floor(LEN / 64) consecutive GEN1 commands over
consecutive windows, block q being the keystream of ADVANCE_N(S, CONV, q) and the final State ADVANCE_N(S, CONV, NB). -/
def Obligations.DispatchEqualsSequentialScalar : Prop :=
  ∀ (pref : Backend) (x : Bool) (rounds len : Nat) (s : State), s.fault = false → Ready pref rounds s →
    OutputHolds s (64 * (len / 64)) → (x = true → InputCovers s.inWin (64 * (len / 64))) →
    ∃ t u bytes, exec (.dispatch pref x rounds len) s = .next t ∧
      gen1Sequence x rounds s.inWin (len / 64) 0 s = some (u, bytes) ∧
      t.outWin.readBytes 0 (64 * (len / 64)) = some bytes ∧
      t.words = u.words ∧ t.conv = u.conv ∧ t.valid = u.valid ∧ t.fault = u.fault ∧ t.cause = u.cause ∧
      t.words = advanceN s.conv (len / 64) s.words ∧
      ∀ off < 64 * (len / 64), t.outWin.read off = blockByte x rounds s off

/-- 44_dispatch R108, 43_block_wide R103: which backend a DISPATCH names is not observable but through
BACKEND_UNAVAILABLE: two available preferences give the same outcome, the whole state included. -/
def Obligations.PreferenceIsNotObservable : Prop :=
  ∀ (pref pref' : Backend) (x : Bool) (rounds len : Nat) (s : State),
    pref.available s.cfg = true → pref'.available s.cfg = true →
    exec (.dispatch pref x rounds len) s = exec (.dispatch pref' x rounds len) s

/-- 44_dispatch R107: the groups a DISPATCH runs, by preference. -/
def Obligations.ScheduleByPreference : Prop :=
  ∀ (hasV4 : Bool) (nb : Nat),
    schedule hasV4 .scalar nb = List.replicate nb .scalar ∧
    schedule hasV4 .v4 nb = List.replicate (nb / 4) .v4 ++ List.replicate (nb % 4) .scalar ∧
    schedule hasV4 .v8 nb = List.replicate (nb / 8) .v8 ++
      (if nb % 8 = 4 ∧ hasV4 = true then [.v4] else List.replicate (nb % 8) .scalar)

/-- 44_dispatch R111: the schedule emits exactly NB blocks, with floor(NB / G) group iterations and fewer than 8 drain
iterations; NB <= 2^58 - 1 and at most 127 round pairs for operands that fit their fields. -/
def Obligations.ScheduleEmitsExactlyTheBlocks : Prop :=
  (∀ (hasV4 : Bool) (pref : Backend) (nb : Nat),
    ((schedule hasV4 pref nb).map Backend.width).sum = nb ∧
    (schedule hasV4 pref nb).length < nb / pref.width + 8 ∧ nb / pref.width ≤ (schedule hasV4 pref nb).length) ∧
  (∀ len, LenFits len → blockCount len ≤ 2 ^ 58 - 1) ∧ ∀ rounds, RoundsFits rounds → rounds / 2 ≤ 127

/-- 44_dispatch R109: with LEN < 64 an accepted DISPATCH changes nothing at all; the acceptance checks still run, and a
fault writes nothing and leaves the words unchanged. -/
def Obligations.ZeroLengthDispatchChangesNothing : Prop :=
  ∀ (pref : Backend) (x : Bool) (rounds len : Nat) (s : State), len < 64 →
    (Ready pref rounds s → exec (.dispatch pref x rounds len) s = .next s) ∧
    (¬ Ready pref rounds s → ∃ c : Cause, exec (.dispatch pref x rounds len) s =
      .next { s with fault := true, cause := c.code } ∧
      (c = .invalidRounds ∨ c = .backendUnavailable ∨ c = .stateNotSet))

/-- 70_reset_and_hazards R142: after any sequence of generation commands the next one continues one keystream, whatever
the commands, their round counts and their modes; the round count is each command's own. -/
def Obligations.CommandsContinueOneKeystream : Prop :=
  ∀ (l : List (GenKind × Bool × Nat)) (k : GenKind) (x : Bool) (rounds : Nat) (s t u : State),
    runCommands l s = some t → exec (k.command x rounds) t = .next u → u.fault = false →
    u.words = advanceN s.conv ((l.map (fun c => c.1.blocks)).sum + k.blocks) s.words ∧
    ∀ off < 64 * k.blocks, ∃ b,
      (keystream (advanceN s.conv ((l.map (fun c => c.1.blocks)).sum + off / 64) s.words) rounds)[off % 64]? = some b ∧
      u.outWin.read off = if x then (s.inWin.read off).map (fun p => b ^^^ p) else some b

/-- 60_exceptions R128: a clone of a State with its counter set up k blocks further on, same key and nonce, is the State
advanced k times, so block q of the clone is block k + q of the original. -/
def Obligations.CloneWithAdvancedCounter : Prop :=
  ∀ (keybits : Nat) (key : KeyWords) (c k q rounds : Nat) (n0 n1 n2 : Word),
    (let words := fun m : Nat => originalWords keybits key (BitVec.ofNat 32 m) (BitVec.ofNat 32 (m / 2 ^ 32)) n0 n1
     keystream (advanceN .original q (words (c + k))) rounds =
       keystream (advanceN .original (k + q) (words c)) rounds) ∧
    (let words := fun m : Nat => layout tag32 key (BitVec.ofNat 32 m) n0 n1 n2
     keystream (advanceN .rfc7539 q (words (c + k))) rounds =
       keystream (advanceN .rfc7539 (k + q) (words c)) rounds)

/-- 70_reset_and_hazards R146 with 20_memory R34: a run ends where a command has faulted, whatever the host does after
that; and what a generation command adds to the result of a run are the bytes of its blocks, 64 NB of them, in counter
order. Log entry 2, read from R146 by inference: a list of acts with a reset before the end of the run is no run and has
no result, so a run that ended well performed every act of the host, no reset among them. -/
def Obligations.OutputOfAStepIsItsBlocks : Prop :=
  (∀ (n : Nat) (s : State) (emitted : List Byte),
    (s.fault = true → runFrom n s emitted = some (emitted, s)) ∧
    (s.fault = false → NextReset s → runFrom (n + 1) s emitted = none) ∧
    ∀ t : State, s.fault = false → ¬ NextReset s → step s = .next t →
      runFrom (n + 1) s emitted = runFrom n t (emitted ++ outputOf s t)) ∧
  (∀ (cfg : Config) (acts : List HostAct) (out : List Byte) (t : State),
    runResult cfg acts = some (out, t) → EndedWell t → t.pending = [] ∧ .reset ∉ acts) ∧
  ∀ (packet : List Word) (rest : List HostAct) (k : GenKind) (x : Bool) (rounds : Nat) (s t : State),
    s.pending = .packet packet :: rest → decode packet = .command (k.command x rounds) → s.fault = false →
    step s = .next t → t.fault = false →
    (outputOf s t).length = 64 * k.blocks ∧
    ∀ off < 64 * k.blocks, (outputOf s t)[off]? = blockByte x rounds s off

/-! Invariants. -/

/-- 10_state R32, R22: the invariant holds after reset of any instance, whatever the host is about to do. -/
def Obligations.InvariantAtReset : Prop :=
  ∀ (cfg : Config) (acts : List HostAct), ({ State.reset with cfg := cfg, pending := acts } : State).Inv

/-- Every step keeps the invariant: both windows in their canonical form; an attached output window filled to its
length and no further (R33, R34); CAUSE 0 without a fault and 1 to 5 with one (R22); VALID = 0 only with zero words
under ORIGINAL, VALID = 1 only with a tag a setup writes, and the 16-byte tag only with a mirrored key under ORIGINAL
(R14, R15, R20). -/
def Obligations.EveryStepKeepsTheInvariant : Prop :=
  ∀ s t : State, s.Inv → step s = .next t → t.Inv

/-- Log entry 1: no step changes the instance's parameters, and a step takes exactly the host's oldest act. The model's
own fields. -/
def Obligations.InstanceIsFixedAndActsAreTakenInOrder : Prop :=
  ∀ s t : State, step s = .next t → t.cfg = s.cfg ∧ t.pending = s.pending.tail

/-- 30_encoding R62: each pseudo-instruction is the one command it stands for, and an omitted counter is 0. -/
def Obligations.PseudoInstructionsAreOneCommand : Prop :=
  (∀ x, (Asm.chacha8 x).command = some (.gen1 x 8) ∧ (Asm.chacha12 x).command = some (.gen1 x 12) ∧
    (Asm.chacha20 x).command = some (.gen1 x 20)) ∧
  (∀ pref len rounds, (Asm.encrypt pref len rounds).command = (Asm.dispatch pref len rounds true).command) ∧
  (∀ keybits key nonce ctr,
    (Asm.rekeyOrig keybits key nonce ctr).command = (Asm.setupOrig keybits key nonce ctr).command ∧
    (Asm.setupOrig keybits key nonce none).command = (Asm.setupOrig keybits key nonce (some 0)).command) ∧
  ∀ key nonce ctr, (Asm.rekeyRfc key nonce ctr).command = (Asm.setupRfc key nonce ctr).command ∧
    (Asm.setupRfc key nonce none).command = (Asm.setupRfc key nonce (some 0)).command
end

