-- ==== Sys2Proof/Laws/Memory.lean ====
section
/-! SUPPORT. The laws of the windows: a read after a write, and that every operation keeps the canonical form. -/

namespace Sys2Proof.Machine

@[simp] theorem Memory.read_nil (off : Nat) : Memory.read [] off = none := rfl

theorem Memory.read_cons (o : Nat) (b : Byte) (m : Memory) (off : Nat) :
    Memory.read ((o, b) :: m) off = if o = off then some b else m.read off := rfl

/-- A read after a write: the byte written at its offset, and every other offset as before. -/
theorem Memory.read_write (m : Memory) (off : Nat) (b : Byte) (a : Nat) :
    (m.write off b).read a = if a = off then some b else m.read a := by
  induction m with
  | nil => simp [Memory.write, Memory.read_cons, eq_comm]
  | cons c rest ih =>
    obtain ⟨o, d⟩ := c
    simp only [Memory.write]
    split
    · simp only [Memory.read_cons, eq_comm (a := off)]
    · split
      · subst_vars; simp only [Memory.read_cons]; split <;> split <;> first | rfl | omega
      · simp only [Memory.read_cons, ih]; split <;> split <;> first | rfl | omega

@[simp] theorem Memory.read_write_same (m : Memory) (off : Nat) (b : Byte) :
    (m.write off b).read off = some b := by simp [Memory.read_write]

theorem Memory.read_write_other (m : Memory) {off a : Nat} (b : Byte) (h : a ≠ off) :
    (m.write off b).read a = m.read a := by simp [Memory.read_write, h]

/-- A read after a write of bytes in a row: inside the row the byte of the row, outside it as before. -/
theorem Memory.read_writeBytes (m : Memory) (off : Nat) (bytes : List Byte) (a : Nat) :
    (m.writeBytes off bytes).read a =
      if off ≤ a ∧ a < off + bytes.length then bytes[a - off]? else m.read a := by
  induction bytes generalizing m off with
  | nil => rw [if_neg (by simp only [List.length_nil]; omega)]; rfl
  | cons b bs ih =>
    simp only [Memory.writeBytes, ih, Memory.read_write, List.length_cons]
    by_cases h : off + 1 ≤ a
    · obtain ⟨k, rfl⟩ : ∃ k, a = off + 1 + k := ⟨a - (off + 1), by omega⟩
      have e1 : off + 1 + k - (off + 1) = k := by omega
      have e2 : off + 1 + k - off = k + 1 := by omega
      have e3 : ¬ off + 1 + k = off := by omega
      simp only [e1, e2, e3, List.getElem?_cons_succ, if_false]
      split <;> split <;> first | rfl | omega
    · by_cases h2 : a = off
      · subst h2; simp
      · have e1 : ¬(off + 1 ≤ a ∧ a < off + 1 + bs.length) := by omega
        have e2 : ¬(off ≤ a ∧ a < off + (bs.length + 1)) := by omega
        rw [if_neg e1, if_neg e2, if_neg h2]

theorem Memory.read_ofBytes (bytes : List Byte) (off : Nat) : (Memory.ofBytes bytes).read off = bytes[off]? := by
  simp only [Memory.ofBytes, Memory.read_writeBytes]
  split
  · simp
  · rw [List.getElem?_eq_none (by omega)]; rfl

/-- Two windows written with two rows in a row are one window written with the rows joined. -/
theorem Memory.writeBytes_append (m : Memory) (off : Nat) (bs cs : List Byte) :
    (m.writeBytes off bs).writeBytes (off + bs.length) cs = m.writeBytes off (bs ++ cs) := by
  induction bs generalizing m off with
  | nil => simp [Memory.writeBytes]
  | cons b bs ih =>
    simp only [Memory.writeBytes, List.cons_append, List.length_cons]
    rw [show off + (bs.length + 1) = off + 1 + bs.length by omega, ih]

/-- The offsets a write lists: the one written and those listed before. -/
theorem Memory.mem_write (m : Memory) (off : Nat) (b : Byte) (c : Host.Cell) (h : c ∈ m.write off b) :
    c = (off, b) ∨ c ∈ m := by
  induction m with
  | nil => simpa [Memory.write] using h
  | cons d rest ih =>
    obtain ⟨o, e⟩ := d
    simp only [Memory.write] at h
    split at h
    · simpa using h
    · split at h
      · rcases List.mem_cons.1 h with h | h <;> simp [h]
      · rcases List.mem_cons.1 h with h | h
        · simp [h]
        · rcases ih h with h | h <;> simp [h]

/-- A write keeps the canonical form. -/
theorem Memory.wf_write (m : Memory) (off : Nat) (b : Byte) (h : m.wf) : (m.write off b).wf := by
  induction m with
  | nil => simp [Memory.write]
  | cons d rest ih =>
    obtain ⟨o, e⟩ := d
    have ⟨h1, h2⟩ := List.pairwise_cons.1 h
    simp only [Memory.write]
    split
    next lt =>
      refine List.pairwise_cons.2 ⟨fun c hc => ?_, h⟩
      rcases List.mem_cons.1 hc with rfl | hc
      · exact lt
      · have := h1 c hc; simp only at this ⊢; omega
    next nlt =>
      split
      next eq => subst eq; exact List.pairwise_cons.2 ⟨h1, h2⟩
      next ne =>
        refine List.pairwise_cons.2 ⟨fun c hc => ?_, ih h2⟩
        rcases Memory.mem_write rest off b c hc with rfl | hc
        · simp only; omega
        · exact h1 c hc

theorem Memory.wf_writeBytes (m : Memory) (off : Nat) (bytes : List Byte) (h : m.wf) :
    (m.writeBytes off bytes).wf := by
  induction bytes generalizing m off with
  | nil => exact h
  | cons b bs ih => exact ih _ _ (Memory.wf_write m off b h)

theorem Memory.wf_ofBytes (bytes : List Byte) : (Memory.ofBytes bytes).wf :=
  Memory.wf_writeBytes [] 0 bytes List.Pairwise.nil

/-- MemRead answers n bytes, each the one at its offset. -/
theorem Memory.readBytes_eq_some (m : Memory) (off n : Nat) (bytes : List Byte)
    (h : m.readBytes off n = some bytes) :
    bytes.length = n ∧ ∀ k < n, m.read (off + k) = bytes[k]? := by
  induction n generalizing off bytes with
  | zero => simp [Memory.readBytes] at h; simp [← h]
  | succ n ih =>
    simp only [Memory.readBytes] at h
    split at h
    next b bs hb hbs =>
      cases h
      obtain ⟨h1, h2⟩ := ih _ _ hbs
      refine ⟨by simp [h1], fun k hk => ?_⟩
      cases k with
      | zero => simpa using hb
      | succ k =>
        have := h2 k (by omega)
        rw [List.getElem?_cons_succ, ← this]
        congr 1; omega
    next => cases h

/-- MemRead answers exactly when every byte of the range is there. -/
theorem Memory.readBytes_isSome (m : Memory) (off n : Nat) :
    (m.readBytes off n).isSome = true ↔ ∀ k < n, (m.read (off + k)).isSome = true := by
  induction n generalizing off with
  | zero => simp [Memory.readBytes]
  | succ n ih =>
    have key : (m.readBytes off (n + 1)).isSome = true ↔
        (m.read off).isSome = true ∧ (m.readBytes (off + 1) n).isSome = true := by
      simp only [Memory.readBytes]
      cases m.read off <;> cases m.readBytes (off + 1) n <;> simp
    rw [key, ih]
    constructor
    · rintro ⟨h0, h1⟩ k hk
      cases k with
      | zero => exact h0
      | succ k => have := h1 k (by omega); rwa [show off + 1 + k = off + (k + 1) by omega] at this
    · intro h
      refine ⟨h 0 (by omega), fun k hk => ?_⟩
      have := h (k + 1) (by omega)
      rwa [show off + (k + 1) = off + 1 + k by omega] at this

/-- The offsets of a canonical window determine it: two canonical windows that read alike are equal. -/
theorem Memory.ext_of_wf (m n : Memory) (hm : m.wf) (hn : n.wf) (h : ∀ off, m.read off = n.read off) : m = n := by
  induction m generalizing n with
  | nil =>
    cases n with
    | nil => rfl
    | cons d rest => have := h d.1; obtain ⟨o, e⟩ := d; simp [Memory.read_cons] at this
  | cons c rest ih =>
    obtain ⟨o, b⟩ := c
    have ⟨m1, m2⟩ := List.pairwise_cons.1 hm
    have below : ∀ (k : Memory) (a : Nat), (∀ d ∈ k, a < d.1) → k.read a = none := by
      intro k a
      induction k with
      | nil => intro _; rfl
      | cons d t iht =>
        intro hd
        obtain ⟨p, q⟩ := d
        have := hd (p, q) (by simp)
        simp only [Memory.read_cons]
        rw [if_neg (by simp only at this; omega)]
        exact iht (fun e he => hd e (by simp [he]))
    cases n with
    | nil => have := h o; simp [Memory.read_cons] at this
    | cons d rest2 =>
      obtain ⟨p, e⟩ := d
      have ⟨n1, n2⟩ := List.pairwise_cons.1 hn
      have hop : o = p := by
        rcases Nat.lt_trichotomy o p with lt | eq | gt
        · have := h o
          rw [Memory.read_cons, if_pos rfl, below ((p, e) :: rest2) o] at this
          · cases this
          · intro d hd
            rcases List.mem_cons.1 hd with rfl | hd
            · exact lt
            · have := n1 d hd; simp only at this; omega
        · exact eq
        · have := h p
          rw [Memory.read_cons p, if_pos rfl, below ((o, b) :: rest) p] at this
          · cases this
          · intro d hd
            rcases List.mem_cons.1 hd with rfl | hd
            · exact gt
            · have := m1 d hd; simp only at this; omega
      subst hop
      have hb := h o
      simp only [Memory.read_cons, if_true] at hb
      cases hb
      rw [ih rest2 m2 n2]
      intro off
      have := h off
      simp only [Memory.read_cons] at this
      by_cases he : o = off
      · subst he
        rw [below rest o (fun d hd => m1 d hd), below rest2 o (fun d hd => n1 d hd)]
      · simpa [he] using this

end Sys2Proof.Machine
end

