-- ==== Sys2Proof/Laws/State.lean ====
section
/-! SUPPORT. One lemma per field per state update, each true by rfl, so that no proof unfolds a record update. -/

namespace Sys2Proof.Machine

@[simp] theorem State.setWords_words (s : State) (v : Regs Word) : (s.setWords v).words = v := rfl
@[simp] theorem State.setWords_conv (s : State) (v : Regs Word) : (s.setWords v).conv = s.conv := rfl
@[simp] theorem State.setWords_valid (s : State) (v : Regs Word) : (s.setWords v).valid = s.valid := rfl
@[simp] theorem State.setWords_fault (s : State) (v : Regs Word) : (s.setWords v).fault = s.fault := rfl
@[simp] theorem State.setWords_cause (s : State) (v : Regs Word) : (s.setWords v).cause = s.cause := rfl
@[simp] theorem State.setWords_inWin (s : State) (v : Regs Word) : (s.setWords v).inWin = s.inWin := rfl
@[simp] theorem State.setWords_outWin (s : State) (v : Regs Word) : (s.setWords v).outWin = s.outWin := rfl
@[simp] theorem State.setWords_outLen (s : State) (v : Regs Word) : (s.setWords v).outLen = s.outLen := rfl
@[simp] theorem State.setWords_cfg (s : State) (v : Regs Word) : (s.setWords v).cfg = s.cfg := rfl
@[simp] theorem State.setWords_pending (s : State) (v : Regs Word) : (s.setWords v).pending = s.pending := rfl

@[simp] theorem State.writeOut_words (s : State) (off : Nat) (bytes : List Byte) : (s.writeOut off bytes).words = s.words := rfl
@[simp] theorem State.writeOut_conv (s : State) (off : Nat) (bytes : List Byte) : (s.writeOut off bytes).conv = s.conv := rfl
@[simp] theorem State.writeOut_valid (s : State) (off : Nat) (bytes : List Byte) : (s.writeOut off bytes).valid = s.valid := rfl
@[simp] theorem State.writeOut_fault (s : State) (off : Nat) (bytes : List Byte) : (s.writeOut off bytes).fault = s.fault := rfl
@[simp] theorem State.writeOut_cause (s : State) (off : Nat) (bytes : List Byte) : (s.writeOut off bytes).cause = s.cause := rfl
@[simp] theorem State.writeOut_inWin (s : State) (off : Nat) (bytes : List Byte) : (s.writeOut off bytes).inWin = s.inWin := rfl
@[simp] theorem State.writeOut_outWin (s : State) (off : Nat) (bytes : List Byte) : (s.writeOut off bytes).outWin = s.outWin.writeBytes off bytes := rfl
@[simp] theorem State.writeOut_outLen (s : State) (off : Nat) (bytes : List Byte) : (s.writeOut off bytes).outLen = s.outLen := rfl
@[simp] theorem State.writeOut_cfg (s : State) (off : Nat) (bytes : List Byte) : (s.writeOut off bytes).cfg = s.cfg := rfl
@[simp] theorem State.writeOut_pending (s : State) (off : Nat) (bytes : List Byte) : (s.writeOut off bytes).pending = s.pending := rfl

@[simp] theorem State.populate_words (s : State) (v : Regs Word) (conv : Conv) : (s.populate v conv).words = v := rfl
@[simp] theorem State.populate_conv (s : State) (v : Regs Word) (conv : Conv) : (s.populate v conv).conv = conv := rfl
@[simp] theorem State.populate_valid (s : State) (v : Regs Word) (conv : Conv) : (s.populate v conv).valid = true := rfl
@[simp] theorem State.populate_fault (s : State) (v : Regs Word) (conv : Conv) : (s.populate v conv).fault = s.fault := rfl
@[simp] theorem State.populate_cause (s : State) (v : Regs Word) (conv : Conv) : (s.populate v conv).cause = s.cause := rfl
@[simp] theorem State.populate_inWin (s : State) (v : Regs Word) (conv : Conv) : (s.populate v conv).inWin = s.inWin := rfl
@[simp] theorem State.populate_outWin (s : State) (v : Regs Word) (conv : Conv) : (s.populate v conv).outWin = s.outWin := rfl
@[simp] theorem State.populate_outLen (s : State) (v : Regs Word) (conv : Conv) : (s.populate v conv).outLen = s.outLen := rfl
@[simp] theorem State.populate_cfg (s : State) (v : Regs Word) (conv : Conv) : (s.populate v conv).cfg = s.cfg := rfl
@[simp] theorem State.populate_pending (s : State) (v : Regs Word) (conv : Conv) : (s.populate v conv).pending = s.pending := rfl

@[simp] theorem State.destroy_words (s : State) : (s.destroy).words = Regs.all 0 := rfl
@[simp] theorem State.destroy_conv (s : State) : (s.destroy).conv = .original := rfl
@[simp] theorem State.destroy_valid (s : State) : (s.destroy).valid = false := rfl
@[simp] theorem State.destroy_fault (s : State) : (s.destroy).fault = s.fault := rfl
@[simp] theorem State.destroy_cause (s : State) : (s.destroy).cause = s.cause := rfl
@[simp] theorem State.destroy_inWin (s : State) : (s.destroy).inWin = s.inWin := rfl
@[simp] theorem State.destroy_outWin (s : State) : (s.destroy).outWin = s.outWin := rfl
@[simp] theorem State.destroy_outLen (s : State) : (s.destroy).outLen = s.outLen := rfl
@[simp] theorem State.destroy_cfg (s : State) : (s.destroy).cfg = s.cfg := rfl
@[simp] theorem State.destroy_pending (s : State) : (s.destroy).pending = s.pending := rfl

@[simp] theorem State.advanceBy_words (s : State) (n : Nat) : (s.advanceBy n).words = advanceN s.conv n s.words := rfl
@[simp] theorem State.advanceBy_conv (s : State) (n : Nat) : (s.advanceBy n).conv = s.conv := rfl
@[simp] theorem State.advanceBy_valid (s : State) (n : Nat) : (s.advanceBy n).valid = s.valid := rfl
@[simp] theorem State.advanceBy_fault (s : State) (n : Nat) : (s.advanceBy n).fault = s.fault := rfl
@[simp] theorem State.advanceBy_cause (s : State) (n : Nat) : (s.advanceBy n).cause = s.cause := rfl
@[simp] theorem State.advanceBy_inWin (s : State) (n : Nat) : (s.advanceBy n).inWin = s.inWin := rfl
@[simp] theorem State.advanceBy_outWin (s : State) (n : Nat) : (s.advanceBy n).outWin = s.outWin := rfl
@[simp] theorem State.advanceBy_outLen (s : State) (n : Nat) : (s.advanceBy n).outLen = s.outLen := rfl
@[simp] theorem State.advanceBy_cfg (s : State) (n : Nat) : (s.advanceBy n).cfg = s.cfg := rfl
@[simp] theorem State.advanceBy_pending (s : State) (n : Nat) : (s.advanceBy n).pending = s.pending := rfl

@[simp] theorem State.presenting_words (s : State) (packet : List Word) : (s.presenting packet).words = s.words := rfl
@[simp] theorem State.presenting_conv (s : State) (packet : List Word) : (s.presenting packet).conv = s.conv := rfl
@[simp] theorem State.presenting_valid (s : State) (packet : List Word) : (s.presenting packet).valid = s.valid := rfl
@[simp] theorem State.presenting_fault (s : State) (packet : List Word) : (s.presenting packet).fault = s.fault := rfl
@[simp] theorem State.presenting_cause (s : State) (packet : List Word) : (s.presenting packet).cause = s.cause := rfl
@[simp] theorem State.presenting_inWin (s : State) (packet : List Word) : (s.presenting packet).inWin = s.inWin := rfl
@[simp] theorem State.presenting_outWin (s : State) (packet : List Word) : (s.presenting packet).outWin = s.outWin := rfl
@[simp] theorem State.presenting_outLen (s : State) (packet : List Word) : (s.presenting packet).outLen = s.outLen := rfl
@[simp] theorem State.presenting_cfg (s : State) (packet : List Word) : (s.presenting packet).cfg = s.cfg := rfl
@[simp] theorem State.presenting_pending (s : State) (packet : List Word) : (s.presenting packet).pending = .packet packet :: s.pending := rfl

@[simp] theorem raiseFault_words (c : Cause) (s : State) : (raiseFault c s).words = s.words := rfl
@[simp] theorem raiseFault_conv (c : Cause) (s : State) : (raiseFault c s).conv = s.conv := rfl
@[simp] theorem raiseFault_valid (c : Cause) (s : State) : (raiseFault c s).valid = s.valid := rfl
@[simp] theorem raiseFault_fault (c : Cause) (s : State) : (raiseFault c s).fault = true := rfl
@[simp] theorem raiseFault_cause (c : Cause) (s : State) : (raiseFault c s).cause = c.code := rfl
@[simp] theorem raiseFault_inWin (c : Cause) (s : State) : (raiseFault c s).inWin = s.inWin := rfl
@[simp] theorem raiseFault_outWin (c : Cause) (s : State) : (raiseFault c s).outWin = s.outWin := rfl
@[simp] theorem raiseFault_outLen (c : Cause) (s : State) : (raiseFault c s).outLen = s.outLen := rfl
@[simp] theorem raiseFault_cfg (c : Cause) (s : State) : (raiseFault c s).cfg = s.cfg := rfl
@[simp] theorem raiseFault_pending (c : Cause) (s : State) : (raiseFault c s).pending = s.pending := rfl

@[simp] theorem resetEngine_words (s : State) : (resetEngine s).words = Regs.all 0 := rfl
@[simp] theorem resetEngine_conv (s : State) : (resetEngine s).conv = .original := rfl
@[simp] theorem resetEngine_valid (s : State) : (resetEngine s).valid = false := rfl
@[simp] theorem resetEngine_fault (s : State) : (resetEngine s).fault = false := rfl
@[simp] theorem resetEngine_cause (s : State) : (resetEngine s).cause = 0 := rfl
@[simp] theorem resetEngine_inWin (s : State) : (resetEngine s).inWin = [] := rfl
@[simp] theorem resetEngine_outWin (s : State) : (resetEngine s).outWin = [] := rfl
@[simp] theorem resetEngine_outLen (s : State) : (resetEngine s).outLen = none := rfl
@[simp] theorem resetEngine_cfg (s : State) : (resetEngine s).cfg = s.cfg := rfl
@[simp] theorem resetEngine_pending (s : State) : (resetEngine s).pending = s.pending := rfl

@[simp] theorem State.reset_words : State.reset.words = Regs.all 0 := rfl
@[simp] theorem State.reset_conv : State.reset.conv = .original := rfl
@[simp] theorem State.reset_valid : State.reset.valid = false := rfl
@[simp] theorem State.reset_fault : State.reset.fault = false := rfl
@[simp] theorem State.reset_cause : State.reset.cause = 0 := rfl
@[simp] theorem State.reset_inWin : State.reset.inWin = [] := rfl
@[simp] theorem State.reset_outWin : State.reset.outWin = [] := rfl
@[simp] theorem State.reset_outLen : State.reset.outLen = none := rfl
@[simp] theorem State.reset_cfg : State.reset.cfg = Config.default := rfl
@[simp] theorem State.reset_pending : State.reset.pending = [] := rfl

end Sys2Proof.Machine
end

