-- ==== Sys2Proof/Laws/Blocks.lean ====
section
/-! SUPPORT. One lemma per shared operation of the generation commands: acceptance, serialisation, the store of a
block, the counter advance, the lanes. -/

namespace Sys2Proof.Machine

/-! Acceptance. -/

/-- Everything the acceptance checks can answer (R121). -/
theorem generationCause_cases (r b v : Bool) :
    (r = false ∧ generationCause r b v = some .invalidRounds) ∨
    (r = true ∧ b = false ∧ generationCause r b v = some .backendUnavailable) ∨
    (r = true ∧ b = true ∧ v = false ∧ generationCause r b v = some .stateNotSet) ∨
    (r = true ∧ b = true ∧ v = true ∧ generationCause r b v = none) := by
  cases r <;> cases b <;> cases v <;> decide

@[simp] theorem accepted_some (c : Cause) (nb : Nat) (run : Option State) (s : State) :
    accepted (some c) nb run s = .next (raiseFault c s) := rfl
@[simp] theorem accepted_none_none (nb : Nat) (s : State) :
    accepted none nb none s = .refused .inputWindowShort := rfl
@[simp] theorem accepted_none_some (nb : Nat) (s t : State) :
    accepted none nb (some t) s = if outRoom s (64 * nb) then .next t else .refused .outputWindowShort := rfl

/-- Everything an accepted command can answer: the fault entry, or a next state of its own that OUT has room for. -/
theorem accepted_next (cause : Option Cause) (nb : Nat) (run : Option State) (s t : State)
    (h : accepted cause nb run s = .next t) :
    (∃ c, cause = some c ∧ t = raiseFault c s) ∨ (cause = none ∧ outRoom s (64 * nb) = true ∧ run = some t) := by
  cases cause with
  | some c => cases h; exact .inl ⟨c, rfl, rfl⟩
  | none => cases run with
    | none => cases h
    | some u =>
      rw [accepted_none_some] at h
      split at h
      · next hr => cases h; exact .inr ⟨rfl, hr, rfl⟩
      · cases h

/-! The room in the output window (R33, R133 (e)). -/

@[simp] theorem outRoom_unattached (s : State) (n : Nat) (h : s.outLen = none) : outRoom s n = true := by
  simp only [outRoom, h]
theorem outRoom_attached (s : State) (n len : Nat) (h : s.outLen = some len) : outRoom s n = decide (n ≤ len) := by
  simp only [outRoom, h]
@[simp] theorem outRoom_zero (s : State) : outRoom s 0 = true := by
  cases h : s.outLen with
  | none => exact outRoom_unattached s 0 h
  | some len => simp [outRoom_attached s 0 len h]

/-- A fault code is one of 1 to 5 (R114). -/
theorem Cause.code_range (c : Cause) : 1 ≤ c.code.toNat ∧ c.code.toNat ≤ 5 := by cases c <;> decide

/-! Serialisation. -/

theorem bytes32_length (w : Word) : (bytes32 w).length = 4 := rfl

theorem flatMap_bytes32_length (l : List Word) : (l.flatMap bytes32).length = 4 * l.length := by
  induction l with
  | nil => rfl
  | cons w ws ih => simp [List.flatMap_cons, bytes32_length, ih]; omega

@[simp] theorem Regs.toList_length {α : Type} (r : Regs α) : r.toList.length = 16 := rfl

@[simp] theorem serialise_length (v : Regs Word) : (serialise v).length = 64 := by
  rw [serialise, flatMap_bytes32_length]; rfl

@[simp] theorem keystream_length (s : Regs Word) (rounds : Nat) : (keystream s rounds).length = 64 := by
  simp [keystream]

/-! The store of one block. -/

/-- The bytes a store puts at a window offset, if it can (R82). -/
def storedBytes (x : Bool) (off : Nat) (ks : List Byte) (m : Memory) : Option (List Byte) :=
  if x then (m.readBytes off 64).map (xorBytes ks) else some ks

/-- A store is the write of the stored bytes, and nothing else. -/
theorem storeBlock_eq (x : Bool) (off : Nat) (ks : List Byte) (s : State) :
    storeBlock x off ks s = (storedBytes x off ks s.inWin).map (s.writeOut off) := by
  cases x with
  | false => rfl
  | true =>
    simp only [storeBlock, storedBytes, if_true]
    cases s.inWin.readBytes off 64 <;> rfl

/-- The stored bytes, byte by byte: as many as the block has, each the keystream byte or its xor with the input. -/
theorem storedBytes_spec (x : Bool) (off : Nat) (ks : List Byte) (m : Memory) (bytes : List Byte)
    (hks : ks.length = 64) (h : storedBytes x off ks m = some bytes) :
    bytes.length = 64 ∧ ∀ k < 64, bytes[k]? =
      match ks[k]? with
      | none => none
      | some b => if x then (m.read (off + k)).map (fun p => b ^^^ p) else some b := by
  cases x with
  | false =>
    simp only [storedBytes] at h
    cases h
    refine ⟨hks, fun k hk => ?_⟩
    cases ks[k]? <;> rfl
  | true =>
    simp only [storedBytes, if_true] at h
    cases hr : m.readBytes off 64 with
    | none => simp [hr] at h
    | some input =>
      simp only [hr, Option.map_some] at h
      cases h
      obtain ⟨h1, h2⟩ := Memory.readBytes_eq_some m off 64 input hr
      refine ⟨by simp [xorBytes, hks, h1], fun k hk => ?_⟩
      rw [h2 k hk]
      simp only [xorBytes, List.getElem?_zipWith, if_true]
      cases ks[k]? <;> cases input[k]? <;> rfl

/-- A store has an outcome exactly when every input byte it reads is there. -/
theorem storedBytes_isSome (x : Bool) (off : Nat) (ks : List Byte) (m : Memory) :
    (storedBytes x off ks m).isSome = true ↔ (x = true → ∀ k < 64, (m.read (off + k)).isSome = true) := by
  cases x with
  | false => simp [storedBytes]
  | true => simp [storedBytes, Memory.readBytes_isSome]

/-! The counter advance. -/

/-- What ADVANCE leaves unchanged under both conventions (R83). -/
theorem advance_frame (conv : Conv) (s : Regs Word) :
    advance conv s = { s with w12 := s.w12 + 1, w13 := (advance conv s).w13 } := by
  cases conv <;> rfl

@[simp] theorem advance_w12 (conv : Conv) (s : Regs Word) : (advance conv s).w12 = s.w12 + 1 := by
  cases conv <;> rfl
@[simp] theorem advance_rfc_w13 (s : Regs Word) : (advance .rfc7539 s).w13 = s.w13 := rfl
theorem advance_original_w13 (s : Regs Word) :
    (advance .original s).w13 = if s.w12 + 1 = 0 then s.w13 + 1 else s.w13 := by
  simp [advance, wrapped]

@[simp] theorem advanceN_zero (conv : Conv) (s : Regs Word) : advanceN conv 0 s = s := rfl
theorem advanceN_succ (conv : Conv) (n : Nat) (s : Regs Word) :
    advanceN conv (n + 1) s = advanceN conv n (advance conv s) := rfl

/-- What ADVANCE_N leaves unchanged: every word but the two counter words (R84). -/
theorem advanceN_frame (conv : Conv) (n : Nat) (s : Regs Word) :
    advanceN conv n s = { s with w12 := (advanceN conv n s).w12, w13 := (advanceN conv n s).w13 } := by
  induction n generalizing s with
  | zero => rfl
  | succ n ih =>
    rw [advanceN_succ, ih, advance_frame conv s]

/-! The lanes. -/

@[simp] theorem laneBlocks_length {n : Nat} (v : Regs (Vec n)) : (laneBlocks v).length = n := by
  simp [laneBlocks]

theorem laneBlocks_getElem {n : Nat} (v : Regs (Vec n)) (i : Nat) (h : i < n) :
    (laneBlocks v)[i]? = some (serialise (lane v ⟨i, h⟩)) := by
  simp [laneBlocks, h]

/-- Every element of a lane-wise operation is the word operation on that lane (R91). -/
theorem vecArith_add {n : Nat} (x y : Vec n) (i : Fin n) : (vecArith n).add x y i = wordArith.add (x i) (y i) := rfl
theorem vecArith_xor {n : Nat} (x y : Vec n) (i : Fin n) : (vecArith n).xor x y i = wordArith.xor (x i) (y i) := rfl
theorem vecArith_rotl {n : Nat} (x : Vec n) (k : Nat) (i : Fin n) :
    (vecArith n).rotl x k i = wordArith.rotl (x i) k := rfl

/-! The ports. -/

/-- Everything a presented packet can do (R121, R123). -/
theorem presentPacket_cases (packet : List Word) (s : State) :
    (s.fault = true ∧ presentPacket packet s = .next s) ∨
    (s.fault = false ∧ ∃ i, Sys2Proof.decode packet = .command i ∧ presentPacket packet s = exec i s) ∨
    (s.fault = false ∧ ∃ r, Sys2Proof.decode packet = .rejected r ∧ r.isIllegal = true ∧
      presentPacket packet s = .next (raiseFault .illegalCommand s)) ∨
    (s.fault = false ∧ ∃ r, Sys2Proof.decode packet = .rejected r ∧ r.isIllegal = false ∧
      presentPacket packet s = .refused .notAPacket) := by
  cases hf : s.fault with
  | true => exact .inl ⟨rfl, by simp [presentPacket, hf]⟩
  | false =>
    cases hd : Sys2Proof.decode packet with
    | command i => exact .inr (.inl ⟨rfl, i, rfl, by simp [presentPacket, hf, hd]⟩)
    | rejected r =>
      cases hr : r.isIllegal with
      | true => exact .inr (.inr (.inl ⟨rfl, r, rfl, hr, by simp [presentPacket, hf, hd, hr]⟩))
      | false => exact .inr (.inr (.inr ⟨rfl, r, rfl, hr, by simp [presentPacket, hf, hd, hr]⟩))

/-- A step takes the host's oldest act, or waits. -/
theorem step_nil (s : State) (h : s.pending = []) : step s = .next s := by
  simp only [step, tick, h]
theorem step_cons (s : State) (act : HostAct) (rest : List HostAct) (h : s.pending = act :: rest) :
    step s = performAct act { s with pending := rest } := by
  simp only [step, tick, h]

end Sys2Proof.Machine
end

