-- ==== Sys2Proof/Laws/Decode.lean ====
section
/-! SUPPORT. One lemma per part of the decoder and the encoder: the fields of a word as numbers, the fields of a built
command word, and what decode answers once the row and its fixed bits are known. -/

namespace Sys2Proof

/-! Fields as numbers. -/

theorem opField_toNat (cw : Word) : opField cw = cw.toNat / 2 ^ 28 % 16 := by
  simp [opField, BitVec.extractLsb'_toNat, Nat.shiftRight_eq_div_pow]

theorem prefField_toNat (cw : Word) : prefField cw = cw.toNat / 2 ^ 26 % 4 := by
  simp [prefField, BitVec.extractLsb'_toNat, Nat.shiftRight_eq_div_pow]

theorem roundsField_toNat (cw : Word) : roundsField cw = cw.toNat / 2 ^ 16 % 256 := by
  simp [roundsField, BitVec.extractLsb'_toNat, Nat.shiftRight_eq_div_pow]

theorem keybitsField_toNat (cw : Word) : keybitsField cw = cw.toNat % 1024 := by
  simp [keybitsField, BitVec.extractLsb'_toNat]

theorem xField_toNat (cw : Word) : (xField cw).toNat = cw.toNat / 2 ^ 25 % 2 := by
  simp only [xField, BitVec.getLsbD, Nat.testBit, Nat.shiftRight_eq_div_pow, Nat.one_and_eq_mod_two]
  rcases Nat.mod_two_eq_zero_or_one (cw.toNat / 2 ^ 25) with h | h <;> rw [h] <;> rfl

theorem opField_lt (cw : Word) : opField cw < 16 := by rw [opField_toNat]; omega

/-! The fields of a built command word. -/

theorem commandWord_toNat (op pref : Nat) (x : Bool) (rounds keybits : Nat) (h1 : op < 16) (h2 : pref < 4)
    (h3 : rounds < 256) (h4 : keybits < 1024) :
    (commandWord op pref x rounds keybits).toNat =
      op * 2 ^ 28 + pref * 2 ^ 26 + x.toNat * 2 ^ 25 + rounds * 2 ^ 16 + keybits := by
  have hx : x.toNat < 2 := by cases x <;> decide
  rw [commandWord, BitVec.toNat_ofNat, Nat.mod_eq_of_lt (by omega)]

/-- Every field of a built command word is the operand it was built from (R48). -/
theorem commandWord_fields (op pref : Nat) (x : Bool) (rounds keybits : Nat) (h1 : op < 16) (h2 : pref < 4)
    (h3 : rounds < 256) (h4 : keybits < 1024) :
    opField (commandWord op pref x rounds keybits) = op ∧ prefField (commandWord op pref x rounds keybits) = pref ∧
    xField (commandWord op pref x rounds keybits) = x ∧ roundsField (commandWord op pref x rounds keybits) = rounds ∧
    keybitsField (commandWord op pref x rounds keybits) = keybits := by
  have e := commandWord_toNat op pref x rounds keybits h1 h2 h3 h4
  have ex := xField_toNat (commandWord op pref x rounds keybits)
  rw [opField_toNat, prefField_toNat, roundsField_toNat, keybitsField_toNat, e]
  rw [e] at ex
  have hx : x.toNat < 2 := by cases x <;> decide
  have hxx : (xField (commandWord op pref x rounds keybits)).toNat = x.toNat := by rw [ex]; omega
  have hb : ∀ p q : Bool, p.toNat = q.toNat → p = q := by decide
  exact ⟨by omega, by omega, hb _ _ hxx, by omega, by omega⟩

theorem Backend.pref_lt (b : Backend) : b.pref < 3 := by cases b <;> decide
theorem Backend.backendOf_pref (b : Backend) : backendOf b.pref = some b := by cases b <;> rfl

/-! The steps of decode (R60). -/

theorem decode_length_ne (cw : Word) (operands : List Word)
    (h : operands.length + 1 ≠ packetWords (opField cw)) : decode (cw :: operands) = .rejected .wrongLength := by
  simp only [decode, h, ne_eq, not_false_eq_true, if_true]

theorem decode_no_row (cw : Word) (operands : List Word) (h : operands.length + 1 = packetWords (opField cw))
    (hr : rowOf (opField cw) = none) : decode (cw :: operands) = .rejected .noSuchOpcode := by
  simp only [decode, h, hr, ne_eq, not_true_eq_false, if_false]

theorem decode_misfit (cw : Word) (operands : List Word) (row : FormatRow)
    (h : operands.length + 1 = packetWords (opField cw)) (hr : rowOf (opField cw) = some row)
    (hf : row.fits cw = false) : decode (cw :: operands) = .rejected .reservedBitSet := by
  simp only [decode, h, hr, hf, ne_eq, not_true_eq_false, if_false, Bool.false_eq_true]

theorem decode_fit (cw : Word) (operands : List Word) (row : FormatRow)
    (h : operands.length + 1 = packetWords (opField cw)) (hr : rowOf (opField cw) = some row)
    (hf : row.fits cw = true) : decode (cw :: operands) = assemble cw operands := by
  simp only [decode, h, hr, hf, ne_eq, not_true_eq_false, if_false, if_true]

/-! What assemble gives for each OP. -/

theorem assemble_one (cw : Word) (h : opField cw = 1) (k : KeyWords) (c0 c1 n0 n1 : Word) :
    assemble cw [k.k0, k.k1, k.k2, k.k3, k.k4, k.k5, k.k6, k.k7, c0, c1, n0, n1] =
      .command (.setupOrig (keybitsField cw) k c0 c1 n0 n1) := by unfold assemble; rw [h]; rfl

theorem assemble_two (cw : Word) (h : opField cw = 2) (k : KeyWords) (c0 n0 n1 n2 : Word) :
    assemble cw [k.k0, k.k1, k.k2, k.k3, k.k4, k.k5, k.k6, k.k7, c0, n0, n1, n2] =
      .command (.setupRfc k c0 n0 n1 n2) := by unfold assemble; rw [h]; rfl

theorem assemble_three (cw : Word) (h : opField cw = 3) :
    assemble cw [] = .command (.gen1 (xField cw) (roundsField cw)) := by unfold assemble; rw [h]; rfl

theorem assemble_four (cw : Word) (h : opField cw = 4) :
    assemble cw [] = .command (.gen4 (xField cw) (roundsField cw)) := by unfold assemble; rw [h]; rfl

theorem assemble_five (cw : Word) (h : opField cw = 5) :
    assemble cw [] = .command (.gen8 (xField cw) (roundsField cw)) := by unfold assemble; rw [h]; rfl

theorem assemble_six (cw lenLo lenHi : Word) (h : opField cw = 6) :
    assemble cw [lenLo, lenHi] = match backendOf (prefField cw) with
      | some pref => .command (.dispatch pref (xField cw) (roundsField cw) (2 ^ 32 * lenHi.toNat + lenLo.toNat))
      | none => .rejected .reservedPreference := by unfold assemble; rw [h]; rfl

theorem assemble_seven (cw : Word) (h : opField cw = 7) : assemble cw [] = .command .zeroize := by
  unfold assemble; rw [h]; rfl

end Sys2Proof
end

