-- ==== Sys2Proof/Laws/PerInstr.lean ====
section
/-! SUPPORT. What holds of each command as syntax, one lemma per constructor. PacketLength: a well-formed command's
packet has the number of words that the OP field of its own first word tells (30_encoding R55). -/

/-- The packet of a well-formed command is a command word and as many operand words as its OP tells (R55). -/
def Sys2Proof.Laws.PacketLength.Statement (i : Sys2Proof.Instr) : Prop :=
  Sys2Proof.WellFormed i = true → ∃ cw operands, Sys2Proof.encode i = cw :: operands ∧
    operands.length + 1 = Sys2Proof.packetWords (Sys2Proof.opField cw)

open Sys2Proof in
theorem Sys2Proof.Laws.PacketLength.setupOrig (keybits : Nat) (key : KeyWords) (c0 c1 n0 n1 : Word) :
    Sys2Proof.Laws.PacketLength.Statement (.setupOrig keybits key c0 c1 n0 n1) := by
  intro hw
  have hk : keybits < 1024 := by simpa [WellFormed, KeybitsFits] using hw
  exact ⟨_, _, rfl, by rw [(commandWord_fields 1 0 false 0 keybits (by omega) (by omega) (by omega) hk).1]; rfl⟩

open Sys2Proof in
theorem Sys2Proof.Laws.PacketLength.setupRfc (key : KeyWords) (c0 n0 n1 n2 : Word) :
    Sys2Proof.Laws.PacketLength.Statement (.setupRfc key c0 n0 n1 n2) := fun _ => ⟨_, _, rfl, by rfl⟩

open Sys2Proof in
theorem Sys2Proof.Laws.PacketLength.gen1 (x : Bool) (rounds : Nat) :
    Sys2Proof.Laws.PacketLength.Statement (.gen1 x rounds) := by
  intro hw
  have hr : rounds < 256 := by simpa [WellFormed, RoundsFits] using hw
  exact ⟨_, _, rfl, by rw [(commandWord_fields 3 0 x rounds 0 (by omega) (by omega) hr (by omega)).1]; rfl⟩

open Sys2Proof in
theorem Sys2Proof.Laws.PacketLength.gen4 (x : Bool) (rounds : Nat) :
    Sys2Proof.Laws.PacketLength.Statement (.gen4 x rounds) := by
  intro hw
  have hr : rounds < 256 := by simpa [WellFormed, RoundsFits] using hw
  exact ⟨_, _, rfl, by rw [(commandWord_fields 4 0 x rounds 0 (by omega) (by omega) hr (by omega)).1]; rfl⟩

open Sys2Proof in
theorem Sys2Proof.Laws.PacketLength.gen8 (x : Bool) (rounds : Nat) :
    Sys2Proof.Laws.PacketLength.Statement (.gen8 x rounds) := by
  intro hw
  have hr : rounds < 256 := by simpa [WellFormed, RoundsFits] using hw
  exact ⟨_, _, rfl, by rw [(commandWord_fields 5 0 x rounds 0 (by omega) (by omega) hr (by omega)).1]; rfl⟩

open Sys2Proof in
theorem Sys2Proof.Laws.PacketLength.dispatch (pref : Backend) (x : Bool) (rounds len : Nat) :
    Sys2Proof.Laws.PacketLength.Statement (.dispatch pref x rounds len) := by
  intro hw
  have hr : rounds < 256 := by
    simp only [WellFormed, RoundsFits, Bool.and_eq_true, decide_eq_true_eq] at hw
    omega
  have hp := Backend.pref_lt pref
  exact ⟨_, _, rfl, by rw [(commandWord_fields 6 pref.pref x rounds 0 (by omega) (by omega) hr (by omega)).1]; rfl⟩

open Sys2Proof in
theorem Sys2Proof.Laws.PacketLength.zeroize :
    Sys2Proof.Laws.PacketLength.Statement .zeroize := fun _ => ⟨_, _, rfl, by rfl⟩
end

