-- ==== Sys2Proof/Laws/Step.lean ====
section
/-! SUPPORT. Said once: what a completed generation command can change, part by part, and everything exec can answer. -/

namespace Sys2Proof.Machine

/-- What a generation command leaves unchanged, however many blocks it emits: every word but the counter words, and
word 13 under RFC7539; every field but the words and OUT; the canonical form of OUT. -/
structure GenerationFrame (s t : State) : Prop where
  words : t.words = { s.words with w12 := t.words.w12, w13 := t.words.w13 }
  nonce : s.conv = .rfc7539 → t.words.w13 = s.words.w13
  rest : t = { s with words := t.words, outWin := t.outWin }
  wf : s.outWin.wf → t.outWin.wf

theorem GenerationFrame.refl (s : State) : GenerationFrame s s := ⟨rfl, fun _ => rfl, rfl, id⟩

theorem GenerationFrame.conv {s t : State} (h : GenerationFrame s t) : t.conv = s.conv := by rw [h.rest]

theorem GenerationFrame.trans {s t u : State} (h : GenerationFrame s t) (g : GenerationFrame t u) :
    GenerationFrame s u :=
  { words := by rw [g.words, h.words]
    nonce := fun hc => (g.nonce (h.conv.trans hc)).trans (h.nonce hc)
    rest := by rw [g.rest, h.rest]
    wf := fun hw => g.wf (h.wf hw) }

theorem storeBlock_frame {x : Bool} {off : Nat} {ks : List Byte} {s t : State}
    (h : storeBlock x off ks s = some t) : GenerationFrame s t := by
  rw [storeBlock_eq] at h
  cases hb : storedBytes x off ks s.inWin with
  | none => rw [hb] at h; cases h
  | some bytes =>
    rw [hb] at h
    cases h
    exact ⟨rfl, fun _ => rfl, rfl, fun hw => Memory.wf_writeBytes _ _ _ hw⟩

theorem advanceN_rfc_w13 (n : Nat) (s : Regs Word) : (advanceN .rfc7539 n s).w13 = s.w13 := by
  induction n generalizing s with
  | zero => rfl
  | succ n ih => rw [advanceN_succ, ih, advance_rfc_w13]

theorem advanceBy_frame (n : Nat) (s : State) : GenerationFrame s (s.advanceBy n) := by
  refine ⟨advanceN_frame _ _ _, fun hc => ?_, rfl, id⟩
  show (advanceN s.conv n s.words).w13 = s.words.w13
  rw [hc, advanceN_rfc_w13]

theorem scalarBlock_frame {x : Bool} {rounds off : Nat} {s t : State}
    (h : scalarBlock x rounds off s = some t) : GenerationFrame s t := by
  simp only [scalarBlock] at h
  split at h
  · next u hu => cases h; exact (storeBlock_frame hu).trans (advanceBy_frame 1 u)
  · cases h

theorem storeBlocks_frame {x : Bool} {blocks : List (List Byte)} {off : Nat} {s t : State}
    (h : storeBlocks x blocks off s = some t) : GenerationFrame s t := by
  induction blocks generalizing off s with
  | nil => cases h; exact .refl _
  | cons ks rest ih =>
    simp only [storeBlocks] at h
    split at h
    · next u hu => exact (storeBlock_frame hu).trans (ih h)
    · cases h

theorem wideGroup_frame {n : Nat} {x : Bool} {rounds off : Nat} {s t : State}
    (h : wideGroup n x rounds off s = some t) : GenerationFrame s t := by
  simp only [wideGroup] at h
  split at h
  · next u hu => cases h; exact (storeBlocks_frame hu).trans (advanceBy_frame n u)
  · cases h

theorem runSchedule_frame {x : Bool} {rounds : Nat} {groups : List Backend} {off : Nat} {s t : State}
    (h : runSchedule x rounds groups off s = some t) : GenerationFrame s t := by
  induction groups generalizing off s with
  | nil => cases h; exact .refl _
  | cons b rest ih =>
    simp only [runSchedule] at h
    split at h
    · next u hu =>
      refine GenerationFrame.trans ?_ (ih h)
      cases b with
      | scalar => exact scalarBlock_frame hu
      | v4 => exact wideGroup_frame hu
      | v8 => exact wideGroup_frame hu
    · cases h

/-- What an accepted command of nb blocks answers, given a frame of its run: the fault entry, or a completed run for
which every acceptance check passed and OUT had room. -/
theorem accepted_frame {r b : Bool} {nb : Nat} {run : Option State} {s t : State}
    (h : accepted (generationCause r b s.valid) nb run s = .next t) (hr : ∀ u, run = some u → GenerationFrame s u) :
    (∃ c, t = raiseFault c s) ∨
    ((r = true ∧ b = true ∧ s.valid = true) ∧ OutputHolds s (64 * nb) ∧ GenerationFrame s t) := by
  rcases accepted_next _ _ _ _ _ h with ⟨c, _, ht⟩ | ⟨hc, ho, ht⟩
  · exact .inl ⟨c, ht⟩
  · refine .inr ⟨?_, ho, hr t ht⟩
    rcases generationCause_cases r b s.valid with q | q | q | q
    · rw [q.2] at hc; cases hc
    · rw [q.2.2] at hc; cases hc
    · rw [q.2.2.2] at hc; cases hc
    · exact ⟨q.1, q.2.1, q.2.2.1⟩

/-- Everything a command can answer as a next state: the fault entry, a populated State, a destroyed State, or a
completed generation command, which every acceptance check let through and OUT had room for. -/
theorem exec_next (i : Instr) (s t : State) (h : exec i s = .next t) :
    (∃ c, t = raiseFault c s) ∨
    (∃ keybits key c0 c1 n0 n1, i = .setupOrig keybits key c0 c1 n0 n1 ∧ (keybits = 128 ∨ keybits = 256) ∧
      t = s.populate (originalWords keybits key c0 c1 n0 n1) .original) ∨
    (∃ key c0 n0 n1 n2, i = .setupRfc key c0 n0 n1 n2 ∧ t = s.populate (layout tag32 key c0 n0 n1 n2) .rfc7539) ∨
    (i = .zeroize ∧ t = s.destroy) ∨
    (∃ (k : GenKind) (x : Bool) (rounds : Nat), i = k.command x rounds ∧ Ready k.backend rounds s ∧
      OutputHolds s (64 * k.blocks) ∧ GenerationFrame s t) := by
  have widen : ∀ {p q r : Prop} (k : GenKind) (x : Bool) (rounds : Nat), i = k.command x rounds →
      (∃ c, t = raiseFault c s) ∨
        (Ready k.backend rounds s ∧ OutputHolds s (64 * k.blocks) ∧ GenerationFrame s t) →
      (∃ c, t = raiseFault c s) ∨ p ∨ q ∨ r ∨
        (∃ (k : GenKind) (x : Bool) (rounds : Nat), i = k.command x rounds ∧ Ready k.backend rounds s ∧
          OutputHolds s (64 * k.blocks) ∧ GenerationFrame s t) :=
    fun k x rounds hi h => h.imp_right fun g => .inr (.inr (.inr ⟨k, x, rounds, hi, g⟩))
  cases i with
  | setupOrig keybits key c0 c1 n0 n1 =>
    simp only [exec, execSetupOrig] at h
    split at h
    · cases h; exact .inl ⟨_, rfl⟩
    · next hk => cases h; exact .inr (.inl ⟨_, _, _, _, _, _, rfl, by omega, rfl⟩)
  | setupRfc key c0 n0 n1 n2 => cases h; exact .inr (.inr (.inl ⟨_, _, _, _, _, rfl, rfl⟩))
  | gen1 x rounds => exact widen .one x rounds rfl (accepted_frame h fun _ hu => scalarBlock_frame hu)
  | gen4 x rounds => exact widen .four x rounds rfl (accepted_frame h fun _ hu => wideGroup_frame hu)
  | gen8 x rounds => exact widen .eight x rounds rfl (accepted_frame h fun _ hu => wideGroup_frame hu)
  | dispatch pref x rounds len => exact widen (.dispatch pref len) x rounds rfl (accepted_frame h fun _ hu => runSchedule_frame hu)
  | zeroize => cases h; exact .inr (.inr (.inr (.inl ⟨rfl, rfl⟩)))

end Sys2Proof.Machine
end

