-- ==== Sys2Proof/Tests/Slice0.lean ====
section
/-! SUPPORT. Small tests and witnesses. Every expected value is one that spec/95_test_vectors.md prints (V..., P...) or a
hand reading of a rule of spec/ named beside it; nothing here is the model's own output. Part 1 is the well-formedness
smoke and the decoder, part 2 the operations, part 3 one step per command, part 4 a witness for every obligation that
has hypotheses. -/

namespace Sys2Proof.Tests

open Sys2Proof.Machine

/-! Helpers. -/

/-- The state an outcome goes on in. -/
def after : Host.Outcome State Fault Refusal → Option State
  | .next t => some t
  | .fault _ => none
  | .refused _ => none

theorem next_of (o : Host.Outcome State Fault Refusal) (p : State → Bool) (h : (after o).any p = true) :
    ∃ t, o = .next t ∧ p t = true := by
  cases o with
  | next t => exact ⟨t, rfl, h⟩
  | fault _ => cases h
  | refused _ => cases h

/-- n bytes, written as one number whose most significant byte comes first. -/
def bytesOf (n v : Nat) : List Byte := (List.range n).map (fun k => BitVec.ofNat 8 (v / 2 ^ (8 * (n - 1 - k))))

/-- A state with these words, not faulted, on the default instance. -/
def keyed (words : Regs Word) (conv : Conv) : State :=
  { State.reset with words := words, conv := conv, valid := true }

/-- The key words of the key bytes 00 to 1f (V10, V12). -/
def ascending : KeyWords :=
  ⟨0x03020100, 0x07060504, 0x0b0a0908, 0x0f0e0d0c, 0x13121110, 0x17161514, 0x1b1a1918, 0x1f1e1d1c⟩

/-- The words of the State of V12, with any counter and first nonce word. -/
def rfcWords (c n : Word) : Regs Word :=
  ⟨0x61707865, 0x3320646e, 0x79622d32, 0x6b206574, 0x03020100, 0x07060504, 0x0b0a0908, 0x0f0e0d0c,
   0x13121110, 0x17161514, 0x1b1a1918, 0x1f1e1d1c, c, n, 0x4a000000, 0x00000000⟩

/-- The State of V12. -/
def v12 : State := keyed (rfcWords 1 0x09000000) .rfc7539

/-- The State of V11. -/
def v11 : State :=
  keyed ⟨0x61707865, 0x3120646e, 0x79622d36, 0x6b206574, 0x03020100, 0x07060504, 0x0b0a0908, 0x0f0e0d0c,
    0x03020100, 0x07060504, 0x0b0a0908, 0x0f0e0d0c, 0, 0, 0x04030201, 0x08070605⟩ .original

/-- Zero key, zero nonce, ORIGINAL, with any counter words (V14, V18). -/
def zeroKey (c0 c1 : Word) : State :=
  keyed ⟨0x61707865, 0x3320646e, 0x79622d32, 0x6b206574, 0, 0, 0, 0, 0, 0, 0, 0, c0, c1, 0, 0⟩ .original

/-- With an input window of n zero bytes. -/
def State.withZeros (s : State) (n : Nat) : State := { s with inWin := Memory.ofBytes (List.replicate n 0) }

/-- With an output window of n zero bytes attached. -/
def State.withOut (s : State) (n : Nat) : State :=
  { s with outWin := Memory.ofBytes (List.replicate n 0), outLen := some n }

theorem State.withOut_cfg (s : State) (n : Nat) : (State.withOut s n).cfg = s.cfg := rfl
theorem State.withOut_inWin (s : State) (n : Nat) : (State.withOut s n).inWin = s.inWin := rfl

/-- With acts of the host to come. -/
def State.withActs (s : State) (acts : List HostAct) : State := { s with pending := acts }

/-- On an instance without the 4-wide backend. -/
def State.without4 (s : State) : State := { s with cfg := { s.cfg with hasV4 := false } }

/-- On an instance without the 8-wide backend. -/
def State.without8 (s : State) : State := { s with cfg := { s.cfg with hasV8 := false } }

/-- A step on a packet. -/
def presented (s : State) (packet : List Word) : Option State := after (step (State.presenting s packet))

/-! Part 1. Well-formedness and the decoder. -/

/-- R48: KEYBITS has ten bits, whatever the engine makes of the value. -/
theorem test_wf_keybits : WellFormed (.setupOrig 1023 ascending 0 0 0 0) = true ∧
    WellFormed (.setupOrig 1024 ascending 0 0 0 0) = false := by decide
/-- R48: ROUNDS has eight bits. -/
theorem test_wf_rounds : WellFormed (.gen1 true 255) = true ∧ WellFormed (.gen1 true 256) = false ∧
    WellFormed (.gen4 false 256) = false ∧ WellFormed (.gen8 false 256) = false ∧
    WellFormed (.dispatch .v4 false 256 64) = false := by decide
/-- R53: LEN has 64 bits. -/
theorem test_wf_len : WellFormed (.dispatch .v8 true 20 (2 ^ 64 - 1)) = true ∧
    WellFormed (.dispatch .v8 true 20 (2 ^ 64)) = false := by decide

/-- V10, V9 row 1. -/
theorem test_decode_setupOrig :
    decode [0x10000100, 0x03020100, 0x07060504, 0x0b0a0908, 0x0f0e0d0c, 0x13121110, 0x17161514, 0x1b1a1918, 0x1f1e1d1c,
      0x89abcdef, 0x01234567, 0x04030201, 0x08070605] =
    .command (.setupOrig 256 ascending 0x89abcdef 0x01234567 0x04030201 0x08070605) := by decide
/-- V12. -/
theorem test_decode_setupRfc :
    decode [0x20000000, 0x03020100, 0x07060504, 0x0b0a0908, 0x0f0e0d0c, 0x13121110, 0x17161514, 0x1b1a1918, 0x1f1e1d1c,
      0x00000001, 0x09000000, 0x4a000000, 0x00000000] =
    .command (.setupRfc ascending 1 0x09000000 0x4a000000 0) := by decide
/-- V9: gen1 r=20 xor and gen1 r=255. -/
theorem test_decode_gen1 : decode [0x32140000] = .command (.gen1 true 20) ∧
    decode [0x30FF0000] = .command (.gen1 false 255) := by decide
/-- V9: gen4 r=8 and gen4 r=20 xor. -/
theorem test_decode_gen4 : decode [0x40080000] = .command (.gen4 false 8) ∧
    decode [0x42140000] = .command (.gen4 true 20) := by decide
/-- V9: gen8 r=20 and gen8 r=12 xor. -/
theorem test_decode_gen8 : decode [0x50140000] = .command (.gen8 false 20) ∧
    decode [0x520C0000] = .command (.gen8 true 12) := by decide
/-- V9 and V25: PREF, X, ROUNDS, and LEN with LEN_LO first. -/
theorem test_decode_dispatch : decode [0x660C0000, 0x14a, 0] = .command (.dispatch .v4 true 12 330) ∧
    decode [0x68140000, 0x340, 0] = .command (.dispatch .v8 false 20 832) ∧
    decode [0x60140000, 0, 1] = .command (.dispatch .scalar false 20 (2 ^ 32)) := by decide
/-- V9. -/
theorem test_decode_zeroize : decode [0x70000000] = .command .zeroize := by decide
/-- V22: one illegal command word of each kind, by name. -/
theorem test_decode_illegal :
    decode [0x00000000] = .rejected .noSuchOpcode ∧ decode [0x80000000] = .rejected .noSuchOpcode ∧
    decode [0xFFFFFFFF] = .rejected .noSuchOpcode ∧ decode [0x31140000] = .rejected .reservedBitSet ∧
    decode [0x34140000] = .rejected .reservedBitSet ∧ decode [0x30140400] = .rejected .reservedBitSet ∧
    decode [0x60140100, 0, 0] = .rejected .reservedBitSet ∧ decode [0x6C140000, 0, 0] = .rejected .reservedPreference ∧
    decode [0x72000000] = .rejected .reservedBitSet := by decide
/-- V22: the illegal words of the two setups, with their twelve operand words. -/
theorem test_decode_illegal_setup :
    decode (0x12000100 :: List.replicate 12 0) = .rejected .reservedBitSet ∧
    decode (0x10000500 :: List.replicate 12 0) = .rejected .reservedBitSet ∧
    decode (0x20000100 :: List.replicate 12 0) = .rejected .reservedBitSet := by decide
/-- V9: the encoder writes the words of the table. -/
theorem test_encode : encode (.gen8 true 12) = [0x520C0000] ∧ encode (.dispatch .v4 true 12 330) = [0x660C0000, 0x14a, 0] ∧
    (encode (.setupOrig 192 ascending 0 0 0 0)).head? = some 0x100000C0 ∧ encode .zeroize = [0x70000000] := by decide
/-- opcode_table.json: a row's bits are the packet's words, the first the least significant, and words of zeros follow. -/
theorem test_table_word : decodeTableWord 32 0x68140000 = some (.dispatch .v8 false 20 0) ∧
    decodeTableWord 96 0x000000000000034068140000 = some (.dispatch .v8 false 20 832) ∧
    decodeTableWord 32 0x20000000 = some (.setupRfc ⟨0, 0, 0, 0, 0, 0, 0, 0⟩ 0 0 0 0) ∧
    decodeTableWord 32 0xF0000000 = none := by decide

/-! Part 2. Operations. -/

/-- V1. -/
theorem test_rotl : rotl32 0x80000000 1 = 0x00000001 ∧ rotl32 0x12345678 12 = 0x45678123 ∧
    rotl32 0x12345678 7 = 0x1a2b3c09 ∧ rotl32 0x00000001 31 = 0x80000000 ∧ rotl32 0xdeadbeef 12 = 0xdbeefdea := by
  decide
/-- V2, V3 rows 2 and 9. -/
theorem test_quarter_round :
    quarterRound wordArith ⟨0x11111111, 0x01020304, 0x9b8d6f43, 0x01234567⟩ =
      ⟨0xea2a92f4, 0xcb1cf8ce, 0x4581472e, 0x5881c4bb⟩ ∧
    quarterRound wordArith ⟨0xffffffff, 0xffffffff, 0xffffffff, 0xffffffff⟩ =
      ⟨0xf0000ffd, 0x88790878, 0x0110fdef, 0x010ffdf0⟩ ∧
    quarterRound wordArith ⟨0x01234567, 0x89abcdef, 0xfedcba98, 0x76543210⟩ =
      ⟨0x127cddee, 0xf4737f6e, 0x5a452c66, 0x3a217533⟩ := by decide
/-- V7. -/
theorem test_quarter_round_inverse :
    quarterRoundInverse ⟨0xea2a92f4, 0xcb1cf8ce, 0x4581472e, 0x5881c4bb⟩ =
      ⟨0x11111111, 0x01020304, 0x9b8d6f43, 0x01234567⟩ := by decide
/-- V5: the column round. -/
theorem test_column_round : columnRound wordArith v12.words =
    ⟨0xabbaa25c, 0x1efa51ea, 0x7354fbdf, 0x83d2dc69, 0x3a465196, 0x1c7e64f6, 0xb12fb628, 0xf05b6976,
     0x6b3ca454, 0x08eb14b1, 0xbf8a9ac9, 0xe444df3b, 0xdec62ed2, 0x8862cc77, 0x6e35b345, 0x52a647f1⟩ := by decide
/-- V5: one round pair. -/
theorem test_double_round : doubleRound wordArith v12.words =
    ⟨0xcd52e917, 0x85ab03b4, 0xb3457395, 0xf96de7dd, 0xc4b7cd22, 0x5c2e187a, 0xc95eb461, 0x316c801a,
     0x7bf7d740, 0x7eddd644, 0xf1a1bdf5, 0x761246ca, 0x6b0d58a3, 0x6798471a, 0xd737f167, 0xf173888d⟩ := by decide
/-- V6 at 20 rounds. -/
theorem test_permute : permute v12.words 20 =
    ⟨0x837778ab, 0xe238d763, 0xa67ae21e, 0x5950bb2f, 0xc4f2d0c7, 0xfc62bb2f, 0x8fa018fc, 0x3f5ec7b7,
     0x335271c2, 0xf29489f3, 0xeabda8fc, 0x82e46ebd, 0xd19c12b4, 0xb04e16de, 0x9e83d0cb, 0x4e3c50a2⟩ := by
  decide +kernel
/-- R66: the tags are the ASCII strings "expand 32-byte k" and "expand 16-byte k" in memory order. -/
theorem test_tags : [tag32.t0, tag32.t1, tag32.t2, tag32.t3].flatMap bytes32 =
      [0x65, 0x78, 0x70, 0x61, 0x6e, 0x64, 0x20, 0x33, 0x32, 0x2d, 0x62, 0x79, 0x74, 0x65, 0x20, 0x6b] ∧
    [tag16.t0, tag16.t1, tag16.t2, tag16.t3].flatMap bytes32 =
      [0x65, 0x78, 0x70, 0x61, 0x6e, 0x64, 0x20, 0x31, 0x36, 0x2d, 0x62, 0x79, 0x74, 0x65, 0x20, 0x6b] := by decide
/-- V16 rows 1, 4, 5 and 7. -/
theorem test_advance :
    advance .original (zeroKey 0xffffffff 0).words = (zeroKey 0 1).words ∧
    advance .original (zeroKey 0xffffffff 7).words = (zeroKey 0 8).words ∧
    advance .original (zeroKey 0xffffffff 0xffffffff).words = (zeroKey 0 0).words ∧
    advance .rfc7539 (rfcWords 0xffffffff 0xddccbbaa) = rfcWords 0 0xddccbbaa := by decide
/-- V16, the closed form: n = 5 and n = 32 under ORIGINAL, n = 8 under RFC7539. -/
theorem test_advance_n :
    advanceN .original 5 (zeroKey 0xfffffffe 0).words = (zeroKey 3 1).words ∧
    advanceN .original 32 (zeroKey 0xfffffff0 0xffffffff).words = (zeroKey 0x10 0).words ∧
    advanceN .rfc7539 8 (rfcWords 0xfffffffc 0x09000000) = rfcWords 4 0x09000000 := by decide
/-- V18 and V19: the lane counters across the carry, and across the RFC7539 wrap without one. -/
theorem test_lane_counters :
    (List.ofFn (laneLow 4 .original (zeroKey 0xfffffffe 0).words) = [0xfffffffe, 0xffffffff, 0, 1] ∧
     List.ofFn (laneHigh 4 .original (zeroKey 0xfffffffe 0).words) = [0, 0, 1, 1]) ∧
    List.ofFn (laneLow 8 .rfc7539 (rfcWords 0xfffffffc 0x09000000)) =
      [0xfffffffc, 0xfffffffd, 0xfffffffe, 0xffffffff, 0, 1, 2, 3] ∧
    List.ofFn (laneHigh 8 .rfc7539 (rfcWords 0xfffffffc 0x09000000)) = List.replicate 8 0x09000000 := by decide
/-- V20: rows 330, 511, 768 with and without the 4-wide backend, 832, 1280. -/
theorem test_schedule :
    schedule true .v4 (blockCount 330) = [.v4, .scalar] ∧
    schedule true .v8 (blockCount 511) = List.replicate 7 .scalar ∧
    schedule true .v8 (blockCount 768) = [.v8, .v4] ∧
    schedule false .v8 (blockCount 768) = .v8 :: List.replicate 4 .scalar ∧
    schedule true .v8 (blockCount 832) = .v8 :: List.replicate 5 .scalar ∧
    schedule true .v8 (blockCount 1280) = [.v8, .v8, .v4] ∧
    schedule true .scalar (blockCount 63) = [] := by decide
/-- R6 and V9's INVALID_ROUNDS rows, on an instance that opens nothing beyond the mandatory counts and on the default
one. -/
theorem test_rounds_supported :
    roundsSupported { Config.default with roundsOpen := 0 } 8 = true ∧
    roundsSupported { Config.default with roundsOpen := 0 } 12 = true ∧
    roundsSupported { Config.default with roundsOpen := 0 } 20 = true ∧
    roundsSupported { Config.default with roundsOpen := 0 } 2 = false ∧
    roundsSupported Config.default 2 = true ∧ roundsSupported Config.default 254 = true ∧
    roundsSupported Config.default 7 = false ∧ roundsSupported Config.default 0 = false ∧
    roundsSupported Config.default 255 = false := by decide
/-- V28. -/
theorem test_read_port : readPort v12 0 = some 0x61707865 ∧ readPort v12 12 = some 1 ∧
    readPort v12 13 = some 0x09000000 ∧ readPort v12 16 = some 5 ∧ readPort v11 1 = some 0x3120646e ∧
    readPort v11 8 = some 0x03020100 ∧ readPort v11 16 = some 1 ∧ readPort v12 17 = none ∧
    (List.range 17).all (fun i => readPort State.reset i == some 0) = true := by decide
/-- V26 and V24: STATUS after one faulting command, the first cause of R121 winning. -/
theorem test_fault_precedence :
    (presented (State.without4 State.reset) [0x44070000]).map statusWord = some 0x42 ∧
    (presented (State.without4 State.reset) [0x40070000]).map statusWord = some 0x22 ∧
    (presented (State.without4 State.reset) [0x40140000]).map statusWord = some 0x32 ∧
    (presented State.reset [0x40140000]).map statusWord = some 0x52 ∧
    (presented (State.without8 v12) [0x68000000, 0, 0]).map statusWord = some 0x27 ∧
    (presented (State.without8 v12) [0x68140000, 0, 0]).map statusWord = some 0x37 ∧
    (presented v12 [0x6c140000, 0x40, 0]).map statusWord = some 0x47 := by decide
/-- V27: the halted engine takes no packet, not even ZEROIZE. -/
theorem test_halted :
    (presented v12 [0x30070000]).map (fun t => (statusWord t, t.words)) = some (0x27, v12.words) ∧
    ((presented v12 [0x30070000]).bind (fun t => presented t [0x70000000])).map
      (fun t => (statusWord t, t.words)) = some (0x27, v12.words) := by decide
/-- P1, line 2: a line of the assembler is its packet. -/
theorem test_assembler_gen1 : lineActs ("gen1 r=20, xor  # OUT window A".toList) = some [.packet [0x32140000]] := by
  decide +kernel
/-- P3, line 2: encrypt is dispatch with xor. -/
theorem test_assembler_encrypt :
    lineActs ("encrypt v4, len=330, r=12".toList) = some [.packet [0x660c0000, 0x0000014a, 0]] := by decide +kernel
/-- P1, line 1: byte strings become little-endian words. -/
theorem test_assembler_setup :
    setupRfcOf (bytesOf 32 0x000102030405060708090a0b0c0d0e0f101112131415161718191a1b1c1d1e1f)
      (bytesOf 12 0x000000090000004a00000000) (some 1) = some (.setupRfc ascending 1 0x09000000 0x4a000000 0) := by
  decide

/-! Part 3. One step per command. -/

/-- V10. -/
theorem test_setupOrig_256 : after (exec (.setupOrig 256 ascending 0x89abcdef 0x01234567 0x04030201 0x08070605)
      State.reset) = some (keyed ⟨0x61707865, 0x3320646e, 0x79622d32, 0x6b206574,
        0x03020100, 0x07060504, 0x0b0a0908, 0x0f0e0d0c, 0x13121110, 0x17161514, 0x1b1a1918, 0x1f1e1d1c,
        0x89abcdef, 0x01234567, 0x04030201, 0x08070605⟩ .original) := by decide
/-- V11 on the State of V12 (V23 row 4): the ignored key words do not reach the State, and CONV goes to ORIGINAL; and V23
row 3: KEYBITS = 255 changes the latch only. -/
theorem test_setupOrig_128 : after (exec (.setupOrig 128 ⟨0x03020100, 0x07060504, 0x0b0a0908, 0x0f0e0d0c,
      0xdeadbeef, 0xdeadbeef, 0xdeadbeef, 0xdeadbeef⟩ 0 0 0x04030201 0x08070605) v12) = some v11 ∧
    (after (exec (.setupOrig 255 ascending 0 0 0 0) v12)).map (fun t => (statusWord t, t.words)) =
      some (0x17, v12.words) := by decide
/-- V12. -/
theorem test_setupRfc : after (exec (.setupRfc ascending 1 0x09000000 0x4a000000 0) State.reset) = some v12 := by decide
/-- V13: the 20-round block of the State of V12, and the counter after it. -/
theorem test_gen1_rfc : (after (exec (.gen1 false 20) v12)).map (fun t => (t.outWin.readBytes 0 64, t.words)) =
    some (some (bytesOf 64 0x10f1e7e4d13b5915500fdd1fa32071c4c7d1f4c733c068030422aa9ac3d46c4ed2826446079faa0914c2d705d98b02a2b5129cd1de164eb9cbd083e8a2503c4e),
      rfcWords 2 0x09000000) := by decide +kernel
/-- V15: the ciphertext of the text "Ladies and Gentlemen of the class of '99: If I could offer you o". -/
theorem test_gen1_xor : (after (exec (.gen1 true 20) { keyed (rfcWords 1 0) .rfc7539 with
      inWin := Memory.ofBytes (bytesOf 64 0x4c616469657320616e642047656e746c656d656e206f662074686520636c617373206f66202739393a204966204920636f756c64206f6666657220796f75206f) })).map
      (fun t => (t.outWin.readBytes 0 64, t.words.w12)) =
    some (some (bytesOf 64 0x6e2e359a2568f98041ba0728dd0d6981e97e7aec1d4360c20a27afccfd9fae0bf91b65c5524733ab8f593dabcd62b3571639d624e65152ab8f530c359f0861d8),
      2) := by decide +kernel
/-- V18: GEN4 across the counter carry. -/
theorem test_gen4_carry : (after (exec (.gen4 false 8) (zeroKey 0xfffffffe 0))).map
      (fun t => (t.outWin.readBytes 0 256, t.words)) =
    some (some (bytesOf 64 0xac22dd35e273d76e47d60d19ad753f578c38d4a8e28ba9f6055e8e0a1d7a6e53cdc46edd57430e0eb14cf19cc107ee6dff4836500383cd683ca2e8f11ba754dd
        ++ bytesOf 64 0x34a2b737751d19ece0256b2bb87237f68188c02b10a6dc31939d4e5d319bd3bbee280b968ad567c1f103089f4f7346d1fea5dec60daf906c3c4e889bc49e0049
        ++ bytesOf 64 0x1ccc59a06308e05be9d29e7288f166c58f2ee06003047710cbfdb7359da916e843980f2c3bf39df2a3e1f451ba18c37f986ff783075484265819602305557dcd
        ++ bytesOf 64 0xb7bd167bdfd87e6e4df89b2f110c9022f16325e2ec113e806a50774673cdb6afb5bd48d1e66c7631edb52d0941452ddbd67bc790a20cfe24213194ae75b2ee47),
      (zeroKey 2 1).words) := by decide +kernel
/-- V24 row 1. -/
theorem test_gen4_missing : after (exec (.gen4 false 20) (State.without4 v12)) =
    some { State.without4 v12 with fault := true, cause := 3 } := by decide
/-- V19 and V24 row 6: GEN8 across the 32-bit wrap leaves the nonce alone, and HAS_V4 plays no part. -/
theorem test_gen8_wrap : (after (exec (.gen8 false 20)
      (State.without4 (keyed (rfcWords 0xfffffffc 0x09000000) .rfc7539)))).map (fun t => (t.words, t.fault)) =
    some (rfcWords 4 0x09000000, false) := by decide +kernel
/-- V19: blocks 4, 5 and 7 of its output window. -/
theorem test_gen8_blocks :
    ((wideBlocks 8 .rfc7539 (rfcWords 0xfffffffc 0x09000000) 20)[4]? =
      some (bytesOf 64 0x8adc91fd9ff4f0f51b0fad50ff15d637e40efda206cc52c783a74200503c1582cd9833367d0a54d57d3c9e998f490ee69ca34c1ff9e939a75584c52d690a35d4)) ∧
    (wideBlocks 8 .rfc7539 (rfcWords 0xfffffffc 0x09000000) 20)[5]? =
      some (bytesOf 64 0x10f1e7e4d13b5915500fdd1fa32071c4c7d1f4c733c068030422aa9ac3d46c4ed2826446079faa0914c2d705d98b02a2b5129cd1de164eb9cbd083e8a2503c4e) ∧
    (wideBlocks 8 .rfc7539 (rfcWords 0xfffffffc 0x09000000) 20)[7]? =
      some (bytesOf 64 0xdcbfbdcb83be65862ed5c20eae5a43241d6a92da6dca9a156be25297f51c27188a861e93cc3aeb129a76598baccd27453ac6941b4b4e1e5153a9fee95d1ba00e) := by
  decide +kernel
/-- P3: a 4-wide group and one drained scalar block in XOR mode with a 128-bit key; bytes 256 to 319, and no byte from
320 on. -/
theorem test_dispatch_xor : (after (exec (.dispatch .v4 true 12 330)
      { v11 with inWin := (List.range 330).map (fun i => (i, BitVec.ofNat 8 (7 * i + 3))) })).map
      (fun t => (t.outWin.readBytes 256 64, t.outWin.read 320, t.words)) =
    some (some (bytesOf 64 0xc877469952625ed38cf7b6779a6b1e2f8a968b4667d98ddc8d26f26a51521dd75f017b946670b79aaed937b8eaa14722cf8e369767ae8e36282a03956f4ffefe),
      none, { v11.words with w12 := 5 }) := by decide +kernel
/-- V21 rows 5 and 7. -/
theorem test_dispatch_corners : (after (exec (.dispatch .scalar false 8 127) v12)).map
      (fun t => (t.outWin.length, t.words.w12)) = some (64, 2) ∧
    after (exec (.dispatch .v4 false 20 1024) (State.without4 v12)) =
      some { State.without4 v12 with fault := true, cause := 3 } := by decide +kernel
/-- V23 rows 5 and 7. -/
theorem test_zeroize : after (exec .zeroize v11) = some State.reset ∧
    after (exec .zeroize State.reset) = some State.reset := by decide

/-! Part 4. Witnesses: for every obligation with hypotheses, a concrete state and operands that meet all of them, with
each clause at a boundary of its range. -/

/-- The State of V12 with 576 zero bytes of input: every generation command is ready on it. -/
def ready : State := State.withZeros v12 576

theorem zeros_cover (s : State) (n m : Nat) (h : m ≤ n) : InputCovers (State.withZeros s n).inWin m := by
  intro off ho
  show ((Memory.ofBytes (List.replicate n 0)).read off).isSome = true
  rw [Memory.read_ofBytes]
  simp only [List.getElem?_replicate, show off < n by omega, if_true, Option.isSome_some]

/-- DecodeOfEncodeIsTheCommand, at the greatest operands. -/
theorem witness_well_formed : WellFormed (.setupOrig 1023 ascending 0 0 0 0) = true ∧
    WellFormed (.setupRfc ascending 0 0 0 0) = true ∧ WellFormed (.gen1 true 255) = true ∧
    WellFormed (.gen4 true 255) = true ∧ WellFormed (.gen8 true 255) = true ∧
    WellFormed (.dispatch .v8 true 255 (2 ^ 64 - 1)) = true ∧ WellFormed .zeroize = true := by decide
/-- EncodeOfDecodeIsThePacket, CommandsHaveTheLengthOpTells. -/
theorem witness_decodes : decode [0x6A080000, 0xFFFFFFFF, 0xFFFFFFFF] =
    .command (.dispatch .v8 true 8 (2 ^ 64 - 1)) := by decide
/-- IllegalWordFaultsAndLegalWordDecodes, first clause, each disjunct of IllegalWord by a word of V22. -/
theorem witness_illegal_word (cw : Word) (n : Nat)
    (h : (cw, n) ∈ [(0x00000000, 0), (0x80000000, 0), (0x10000500, 12), (0x20000100, 12), (0x70000001, 0),
      (0x34140000, 0), (0x31140000, 0), (0x30140080, 0), (0x61140000, 2), (0x60140100, 2), (0x6C140000, 2)]) :
    (State.withActs v12 [.packet (cw :: List.replicate n 0)]).pending = .packet (cw :: List.replicate n 0) :: [] ∧
    (State.withActs v12 [.packet (cw :: List.replicate n 0)]).fault = false ∧
    (List.replicate n (0 : Word)).length + 1 = packetWords (cw.extractLsb' 28 4).toNat ∧ IllegalWord cw := by
  refine ⟨rfl, rfl, ?_, ?_⟩
  · simp only [List.mem_cons, Prod.mk.injEq, List.not_mem_nil, or_false] at h
    rcases h with h | h | h | h | h | h | h | h | h | h | h <;> obtain ⟨rfl, rfl⟩ := h <;> decide
  · simp only [List.mem_cons, Prod.mk.injEq, List.not_mem_nil, or_false] at h
    rcases h with h | h | h | h | h | h | h | h | h | h | h <;> obtain ⟨rfl, rfl⟩ := h <;> unfold IllegalWord <;> decide
/-- The same, second clause. -/
theorem witness_legal_word : (State.withActs v12 [.packet [0x30FF0000]]).pending = .packet [0x30FF0000] :: [] ∧
    (State.withActs v12 [.packet [0x30FF0000]]).fault = false ∧
    ([] : List Word).length + 1 = packetWords ((0x30FF0000 : Word).extractLsb' 28 4).toNat ∧
    ¬ IllegalWord 0x30FF0000 := by
  refine ⟨rfl, rfl, by decide, ?_⟩
  unfold IllegalWord; decide
/-- The same, third and fourth clause: KEYBITS 129 and ROUNDS 255. -/
theorem witness_bad_operand_word : ¬ IllegalWord 0x10000081 ∧ ¬ IllegalWord 0x60FF0000 ∧
    (0x10000081 : Word).extractLsb' 28 4 = 1 ∧ (0x10000081 : Word).extractLsb' 0 10 ≠ 128 ∧
    (0x10000081 : Word).extractLsb' 0 10 ≠ 256 ∧ 3 ≤ ((0x60FF0000 : Word).extractLsb' 28 4).toNat ∧
    ((0x60FF0000 : Word).extractLsb' 28 4).toNat ≤ 6 ∧
    roundsSupported v12.cfg ((0x60FF0000 : Word).extractLsb' 16 8).toNat = false := by
  refine ⟨?_, ?_, by decide⟩ <;> unfold IllegalWord <;> decide
/-- OpcodeRowsDoNotOverlap. -/
theorem witness_row : ∃ r ∈ opcodeMap, r.fits 0x32140000 = true := ⟨_, .tail _ (.tail _ (.head _)), by decide⟩
/-- StepRunsTheDecodedCommand. -/
theorem witness_step : (State.withActs v12 [.packet [0x70000000]]).pending = .packet [0x70000000] :: [] ∧
    (State.withActs v12 [.packet [0x70000000]]).fault = false ∧ decode [0x70000000] = .command .zeroize := by decide
/-- PlacedWordIsTheNextCommand, at reset. -/
theorem witness_placed : State.reset.fault = false ∧ decodeTableWord 96 0x60140000 = some (.dispatch .scalar false 20 0) := by
  decide
/-- EngineWaitsForAPacket, at reset. -/
theorem witness_idle : State.reset.pending = [] := by decide
/-- HaltedEngineAcceptsNothingButReset: a halted engine with each act of the host to come. -/
theorem witness_halted (act : HostAct) (h : act ∈ [.packet [0x70000000], .read 16, .attachIn [], .attachOut []]) :
    ∃ t, (raiseFault .stateNotSet (State.withActs v12 [act])).fault = true ∧ act ≠ .reset ∧
      step (raiseFault .stateNotSet (State.withActs v12 [act])) = .next t := by
  simp only [List.mem_cons, List.not_mem_nil, or_false] at h
  rcases h with rfl | rfl | rfl | rfl <;> exact ⟨_, rfl, by decide, rfl⟩
/-- The same, the reset clause; ResetActRestoresResetValues. -/
theorem witness_reset_act : (raiseFault .stateNotSet (State.withActs v12 [.reset])).fault = true ∧
    (raiseFault .stateNotSet (State.withActs v12 [.reset])).pending = .reset :: [] := by decide
/-- AcceptanceChecksInOrder: one packet for each check, with a state that fails exactly there (V22, V23, V26). -/
theorem witness_acceptance :
    (∃ r, decode [0x80000000] = .rejected r ∧ r.isIllegal = true) ∧
    decode (0x1000007F :: List.replicate 12 0) = .command (.setupOrig 127 ⟨0, 0, 0, 0, 0, 0, 0, 0⟩ 0 0 0 0) ∧
    decode [0x40070000] = .command (GenKind.four.command false 7) ∧
    (roundsSupported (State.without4 v12).cfg 7 = false ∧
      (roundsSupported (State.without4 v12).cfg 254 = true ∧
        GenKind.four.backend.available (State.without4 v12).cfg = false) ∧
      roundsSupported State.reset.cfg 2 = true ∧ GenKind.four.backend.available State.reset.cfg = true ∧
        State.reset.valid = false) := by
  refine ⟨⟨.noSuchOpcode, by decide, rfl⟩, by decide, by decide, by decide⟩
/-- FaultChangesTheLatchOnly, StatusBits: a GEN1 that faults, an illegal word, and a legal latch before. -/
theorem witness_fault (packet : List Word) (h : packet = [0x30070000] ∨ packet = [0x80000000]) :
    (State.withActs v12 [.packet packet]).fault = false ∧ LatchLegal (State.withActs v12 [.packet packet]) ∧
    ∃ t, step (State.withActs v12 [.packet packet]) = .next t ∧ t.fault = true := by
  rcases h with rfl | rfl <;> exact ⟨rfl, by decide, _, rfl, rfl⟩
/-- WordsThatAreNoPacketAreRefused: one word too few, one too many, and no word at all. -/
theorem witness_not_a_packet (packet : List Word)
    (h : packet = [0x60140000, 64] ∨ packet = [0x70000000, 0] ∨ packet = []) :
    (State.withActs v12 [.packet packet]).pending = .packet packet :: [] ∧
    (State.withActs v12 [.packet packet]).fault = false ∧
    ∀ cw operands, packet = cw :: operands → operands.length + 1 ≠ packetWords (opField cw) := by
  refine ⟨rfl, rfl, ?_⟩
  rcases h with rfl | rfl | rfl <;> intro cw operands he <;> cases he <;> decide
/-- ReadPortReadsAndChangesNothing: the last word, STATUS, and the first index that does not exist. -/
theorem witness_read : (15 < 16 ∧ 16 < 17) ∧
    (State.withActs v12 [.read 16]).pending = .read 16 :: [] ∧
    (State.withActs v12 [.read 17]).pending = .read 17 :: [] ∧
    (∀ packet, HostAct.read 16 ≠ .packet packet) ∧ HostAct.read 16 ≠ .reset ∧
    ∃ t, step (State.withActs v12 [.read 16]) = .next t :=
  ⟨by decide, rfl, rfl, (fun _ h => by cases h), by decide, _, rfl⟩
/-- AttachedWindowHoldsItsBytes: an empty window and one of two bytes. -/
theorem witness_attach : (State.withActs v12 [.attachIn []]).pending = .attachIn [] :: [] ∧
    (State.withActs v12 [.attachOut [1, 2]]).pending = .attachOut [1, 2] :: [] := by decide
/-- SetupOrigPopulatesTheState, third clause: the values next to the two legal ones. -/
theorem witness_bad_keybits : ∀ keybits ∈ [0, 127, 129, 255, 257, 1023], keybits ≠ 128 ∧ keybits ≠ 256 := by decide
/-- RoundsSupportedIsAnyLegalPredicate: the instance that opens nothing beyond 8, 12 and 20, and its greatest count. -/
theorem witness_rounds : roundsSupported Config.default 254 = true ∧
    (∀ r, (r == 8 || r == 12 || r == 20) = true → r % 2 = 0 ∧ 2 ≤ r ∧ r ≤ 254) := by
  refine ⟨by decide, fun r h => ?_⟩
  simp only [Bool.or_eq_true, beq_iff_eq] at h
  omega
/-- ZeroizeDestroysTheState: an empty State, and a command that passes the earlier checks. -/
theorem witness_zeroize : PopulatedLegal State.reset ∧ State.reset.valid = false ∧
    (∃ t, exec .zeroize v12 = .next t) ∧ roundsSupported v12.cfg 2 = true ∧
    (GenKind.dispatch .v8 0).backend.available v12.cfg = true := ⟨by decide, rfl, ⟨_, rfl⟩, by decide, rfl⟩
/-- SetupFromBytesGivesTheMemoryImage, with the greatest counters. -/
theorem witness_byte_operands : (List.replicate 32 (7 : Byte)).length = 32 ∧ (List.replicate 16 (7 : Byte)).length = 16 ∧
    (List.replicate 8 (9 : Byte)).length = 8 ∧ (List.replicate 12 (9 : Byte)).length = 12 ∧
    2 ^ 64 - 1 < 2 ^ 64 ∧ 2 ^ 32 - 1 < 2 ^ 32 := by decide
theorem not_nextCommand_of_decode (s : State) (packet : List Word) (i : Instr) (p : Instr → Prop)
    (h : s.pending = [.packet packet]) (hd : decode packet = .command i) (hp : ¬ p i) : ¬ NextCommand s p := by
  rintro ⟨words, rest, j, hw, hj, hpj⟩
  rw [h] at hw
  cases hw
  rw [hd] at hj
  cases hj
  exact hp hpj
/-- KeyNonceAndConstantsNeverChange: a GEN1 under each convention. -/
theorem witness_key_kept (s : State) (h : s = State.withActs v12 [.packet [0x30080000]] ∨
      s = State.withActs (zeroKey 0xffffffff 0) [.packet [0x30080000]]) :
    ∃ t, s.valid = true ∧ step s = .next t ∧ ¬ NextCommand s IsSetup ∧
      ¬ NextCommand s (fun i => i = .zeroize) ∧ ¬ NextReset s := by
  have hd : decode [0x30080000] = .command (.gen1 false 8) := by decide
  have hp : s.pending = [.packet [0x30080000]] := by rcases h with rfl | rfl <;> rfl
  have hs : ∃ t, step s = .next t ∧ (fun _ => true) t = true :=
    next_of _ (fun _ => true) (by rcases h with rfl | rfl <;> decide +kernel)
  obtain ⟨t, ht, _⟩ := hs
  refine ⟨t, by rcases h with rfl | rfl <;> rfl, ht, not_nextCommand_of_decode s _ _ _ hp hd (fun h => h),
    not_nextCommand_of_decode s _ _ _ hp hd (by intro h; cases h), ?_⟩
  rintro ⟨rest, hr⟩
  rw [hp] at hr
  cases hr
/-- ValidAndConvChangeOnlyBySetupZeroizeReset: a setup from reset, ZEROIZE and a reset of a valid State. -/
theorem witness_valid_changes :
    (∃ t, step (State.withActs State.reset [.packet (0x20000000 :: List.replicate 12 0)]) = .next t ∧
      t.valid = true ∧ t.conv ≠ State.reset.conv) ∧
    (∃ t, step (State.withActs v12 [.packet [0x70000000]]) = .next t ∧ t.valid = false ∧ t.conv ≠ v12.conv) ∧
    (∃ t, step (State.withActs v12 [.reset]) = .next t ∧ t.valid = false) := by
  refine ⟨⟨_, rfl, rfl, by decide⟩, ⟨_, rfl, rfl, by decide⟩, ⟨_, rfl, rfl⟩⟩
/-- RotlMovesEveryBit at both ends of the range. -/
theorem witness_rotl : (1 ≤ 1 ∧ 1 ≤ 31) ∧ (1 ≤ 31 ∧ 31 ≤ 31) ∧ 0 < 32 ∧ 31 < 32 := by decide
/-- ColumnsAndDiagonalsOfTheMatrix: the first and the last column and diagonal of the State of V12. -/
theorem witness_matrix : (0 < 4 ∧ 3 < 4) ∧ v12.words.toList[0]? = some 0x61707865 ∧
    v12.words.toList[4 + 0]? = some 0x03020100 ∧ v12.words.toList[8 + 0]? = some 0x13121110 ∧
    v12.words.toList[12 + 0]? = some 1 ∧
    v12.words.toList[3]? = some 0x6b206574 ∧ v12.words.toList[4 + (3 + 1) % 4]? = some 0x03020100 ∧
    v12.words.toList[8 + (3 + 2) % 4]? = some 0x17161514 ∧ v12.words.toList[12 + (3 + 3) % 4]? = some 0x4a000000 := by
  decide
/-- SerialisationIsLittleEndian: the last byte of the last word, of a block and of a keystream block (V6 at 20 rounds). -/
theorem witness_last_byte : 15 < 16 ∧ 3 < 4 ∧ v11.words.toList[15]? = some 0x08070605 ∧
    v12.words.toList[15]? = some 0 ∧ (permute v12.words 20).toList[15]? = some 0x4e3c50a2 := by decide +kernel
/-- CounterWrapsAndIsDistinctBefore: exactly the room that is left, under each convention. -/
theorem witness_counter_room : CounterRoom .original (zeroKey 0xfffffffe 0xffffffff).words 2 ∧
    CounterRoom .rfc7539 (rfcWords 0xfffffffe 0x09000000) 2 ∧ 0 < 2 ∧ 1 < 2 := by decide
/-- The same, last clause: two uses of one key and nonce that meet end to end across the wrap, and one of another nonce
over the same counters. -/
theorem witness_fresh : Fresh [⟨.rfc7539, rfcWords 0xfffffffe 0x09000000, 3⟩, ⟨.rfc7539, rfcWords 1 0x09000000, 2⟩,
    ⟨.rfc7539, rfcWords 1 0x0a000000, 2⟩] ∧ (2 < 3 ∧ 0 < 2) := by
  refine ⟨.cons ?_ (.cons ?_ (.cons ?_ .nil)), by decide⟩
  · rintro v hv - he c ⟨⟨p, hp, h1⟩, q, hq, h2⟩
    simp only [List.mem_cons, List.not_mem_nil, or_false] at hv
    rcases hv with rfl | rfl
    · change p < 3 at hp
      change q < 2 at hq
      change c = (4294967294 + p) % 4294967296 at h1
      change c = (1 + q) % 4294967296 at h2
      omega
    · exact absurd he (by decide)
  · rintro v hv - he
    simp only [List.mem_cons, List.not_mem_nil, or_false] at hv
    subst hv
    exact absurd he (by decide)
  · rintro v hv
    cases hv
/-- Gen1EmitsOneBlock, Gen4EmitsFourBlocks, Gen8EmitsEightBlocks, DispatchEmitsWholeBlocks and
DispatchEqualsSequentialScalar: the premises of each, with input for XOR mode; no output window attached, or one of just
the length. -/
theorem witness_ready : ready.fault = false ∧ Ready .scalar 8 ready ∧ Ready .v4 12 ready ∧ Ready .v8 20 ready ∧
    ready.cfg.hasV4 = true ∧ ready.cfg.hasV8 = true ∧ InputCovers ready.inWin 64 ∧ InputCovers ready.inWin 256 ∧
    InputCovers ready.inWin 512 ∧ InputCovers ready.inWin (64 * (639 / 64)) ∧
    ∀ n, OutputHolds ready n ∧ OutputHolds (State.withOut ready n) n :=
  ⟨rfl, ⟨by decide, rfl, rfl⟩, ⟨by decide, rfl, rfl⟩, ⟨by decide, rfl, rfl⟩, rfl, rfl, zeros_cover v12 576 64 (by decide),
    zeros_cover v12 576 256 (by decide), zeros_cover v12 576 512 (by decide), zeros_cover v12 576 576 (by decide),
    fun n => ⟨rfl, decide_eq_true (Nat.le_refl n)⟩⟩
/-- WideBackendEqualsSequentialScalar: its premises for both widths. -/
theorem witness_wide (k : GenKind) (h : k = .four ∨ k = .eight) :
    ready.fault = false ∧ Ready k.backend 20 ready ∧ OutputHolds ready (64 * k.blocks) ∧
      InputCovers ready.inWin (64 * k.blocks) := by
  rcases h with rfl | rfl
  · exact ⟨rfl, ⟨by decide, rfl, rfl⟩, rfl, zeros_cover v12 576 256 (by decide)⟩
  · exact ⟨rfl, ⟨by decide, rfl, rfl⟩, rfl, zeros_cover v12 576 512 (by decide)⟩
/-- The State of V12 with 65 zero bytes of input. -/
def ready65 : State := State.withZeros v12 65

/-- XorModeIsInvolutionAndHandXor, InputIsReadOnlyWhereTheCommandSays: GEN1 in XOR mode and without it. -/
theorem witness_xor : ∃ t r, Ready GenKind.one.backend 8 ready65 ∧ exec (GenKind.one.command true 8) ready65 = .next t ∧
    exec (GenKind.one.command false 8) ready65 = .next r := by
  obtain ⟨t, ht, _⟩ := next_of (exec (GenKind.one.command true 8) ready65) (fun _ => true) (by decide +kernel)
  obtain ⟨r, hr, _⟩ := next_of (exec (GenKind.one.command false 8) ready65) (fun _ => true) (by decide +kernel)
  exact ⟨t, r, by decide +kernel, ht, hr⟩
/-- XorModeIsInvolutionAndHandXor, the premises of its first clause, with the ciphertext as the second input. -/
theorem witness_xor_back : ∃ t, exec (GenKind.one.command true 8) ready65 = .next t ∧
    (∀ off < 64 * GenKind.one.blocks, (t.outWin.read off).isSome = true) ∧
    Ready GenKind.one.backend 8 { ready65 with inWin := t.outWin } ∧
    ∃ v, exec (GenKind.one.command true 8) { ready65 with inWin := t.outWin } = .next v := by
  obtain ⟨t, ht, hp⟩ := next_of (exec (GenKind.one.command true 8) ready65)
    (fun t => (List.range 64).all (fun off => (t.outWin.read off).isSome) &&
      ((after (exec (GenKind.one.command true 8) { ready65 with inWin := t.outWin })).any (fun _ => true)))
    (by decide +kernel)
  simp only [Bool.and_eq_true, List.all_eq_true, List.mem_range] at hp
  obtain ⟨v, hv, _⟩ := next_of _ (fun _ => true) hp.2
  exact ⟨t, ht, hp.1, ⟨rfl, rfl, rfl⟩, v, hv⟩
/-- InputIsReadOnlyWhereTheCommandSays: another window that agrees below 64 and differs at 64. -/
theorem witness_other_input : (∀ off < 64, (Memory.ofBytes (List.replicate 64 0)).read off = ready65.inWin.read off) ∧
    (Memory.ofBytes (List.replicate 64 0)).read 64 ≠ ready65.inWin.read 64 := by decide +kernel
/-- ShortInputWindowIsRefused: one byte short. -/
theorem witness_short : Ready GenKind.one.backend 8 (State.withZeros v12 63) ∧
    ¬ InputCovers (State.withZeros v12 63).inWin (64 * GenKind.one.blocks) := by decide +kernel
/-- ShortOutputWindowIsRefused: GEN1 in XOR mode, the window one byte short and just long enough. -/
theorem witness_short_output : Ready GenKind.one.backend 8 (State.withOut ready 63) ∧
    InputCovers (State.withOut ready 63).inWin (64 * GenKind.one.blocks) ∧
    (State.withOut ready 63).outLen = some 63 ∧ 63 < 64 * GenKind.one.blocks ∧
    (State.withOut ready 64).outLen = some 64 ∧ 64 * GenKind.one.blocks ≤ 64 := by
  refine ⟨⟨?_, rfl, rfl⟩, ?_, rfl, by decide, rfl, by decide⟩
  · rw [State.withOut_cfg]; decide
  · rw [State.withOut_inWin]; exact zeros_cover v12 576 64 (by decide)
/-- MissingBackendFaults: an instance without the one, an instance without the other. -/
theorem witness_missing : roundsSupported (State.without4 v12).cfg 20 = true ∧ (State.without4 v12).cfg.hasV4 = false ∧
    roundsSupported (State.without8 v12).cfg 20 = true ∧ (State.without8 v12).cfg.hasV8 = false := by decide
/-- PreferenceIsNotObservable: V8 and scalar on an instance without the 4-wide backend. -/
theorem witness_preferences : Backend.v8.available (State.without4 v12).cfg = true ∧
    Backend.scalar.available (State.without4 v12).cfg = true ∧ Backend.v4.available v12.cfg = true := by decide
/-- ScheduleEmitsExactlyTheBlocks, at the greatest operands. -/
theorem witness_fits : LenFits (2 ^ 64 - 1) ∧ RoundsFits 255 := by decide
/-- ZeroLengthDispatchChangesNothing: the greatest such LEN, ready and not. -/
theorem witness_zero_length : 63 < 64 ∧ Ready .v8 20 v12 ∧ ¬ Ready .v8 20 State.reset ∧ ¬ Ready .v8 7 v12 ∧
    ¬ Ready .v8 20 (State.without8 v12) := by decide
/-- CommandsContinueOneKeystream: GEN1 and then a DISPATCH of one block, with different round counts. -/
theorem witness_commands : ∃ t u, runCommands [(.one, false, 8)] v12 = some t ∧
    exec ((GenKind.dispatch .v8 64).command false 12) t = .next u ∧ u.fault = false := by
  obtain ⟨ht, hp⟩ := (Option.any_eq_true_iff_get _ _).1 (show (runCommands [(.one, false, 8)] v12).any
    (fun t => (after (exec ((GenKind.dispatch .v8 64).command false 12) t)).any (fun u => !u.fault)) = true by
      decide +kernel)
  obtain ⟨u, hu, hf⟩ := next_of _ (fun u => !u.fault) hp
  exact ⟨_, u, (Option.some_get ht).symm, hu, by simpa using hf⟩
/-- OutputOfAStepIsItsBlocks, the end of a run: a halted engine, a reset to come, and a run of a setup and a GEN1 that
ends well. -/
theorem witness_run : (raiseFault .stateNotSet v12).fault = true ∧ NextReset (State.withActs v12 [.reset]) ∧
    (State.withActs v12 [.reset]).fault = false ∧ (State.withActs v12 [.read 0]).fault = false ∧
    (∃ t, step (State.withActs v12 [.read 0]) = .next t) ∧
    (runResult Config.default [.packet (0x20000000 :: List.replicate 12 0), .packet [0x30080000]]).any
      (fun r => decide (EndedWell r.2)) = true :=
  ⟨rfl, ⟨_, rfl⟩, rfl, rfl, ⟨_, rfl⟩, by decide +kernel⟩
/-- R146: a run that faults ends there, with the bytes emitted before it, and a reset after it does not make it one that
ended well; a reset before its end makes it no run. -/
theorem test_run_end :
    (runResult Config.default [.packet [0x30080000], .reset, .packet (0x20000000 :: List.replicate 12 0)]).map
      (fun r => (r.1, statusWord r.2, decide (EndedWell r.2))) = some ([], 0x52, false) ∧
    runResult Config.default [.packet (0x20000000 :: List.replicate 12 0), .reset] = none := by decide +kernel
/-- OutputOfAStepIsItsBlocks, its last clause: a GEN1 packet. -/
theorem witness_output : ∃ t, (State.withActs v12 [.packet [0x30080000]]).pending = .packet [0x30080000] :: [] ∧
    decode [0x30080000] = .command (GenKind.one.command false 8) ∧
    (State.withActs v12 [.packet [0x30080000]]).fault = false ∧
    step (State.withActs v12 [.packet [0x30080000]]) = .next t ∧ t.fault = false := by
  obtain ⟨t, ht, hf⟩ := next_of (step (State.withActs v12 [.packet [0x30080000]])) (fun t => !t.fault) (by decide +kernel)
  exact ⟨t, rfl, by decide, rfl, ht, by simpa using hf⟩
/-- The invariant of a state with no output window attached. -/
theorem inv_unattached (s : State) (h : s.outLen = none)
    (hi : s.inWin.wf ∧ s.outWin.wf ∧ LatchLegal s ∧ PopulatedLegal s) : s.Inv :=
  ⟨hi.1, hi.2.1, fun len hl => (by rw [h] at hl; cases hl), hi.2.2⟩
/-- EveryStepKeepsTheInvariant, InstanceIsFixedAndActsAreTakenInOrder: a generation step from a state of the invariant,
one with a 128-bit key and one with a 256-bit key, and a faulting step. -/
theorem witness_invariant (s : State) (h : s = State.withActs v11 [.packet [0x30080000]] ∨
      s = State.withActs v12 [.packet [0x32080000]] ∨ s = State.withActs State.reset [.packet [0x30080000]]) :
    s.Inv ∧ ((∃ t, step s = .next t) ∨ step s = .refused .inputWindowShort) := by
  rcases h with rfl | rfl | rfl
  · obtain ⟨t, ht, _⟩ := next_of (step (State.withActs v11 [.packet [0x30080000]])) (fun _ => true) (by decide +kernel)
    exact ⟨inv_unattached _ rfl (by decide), .inl ⟨t, ht⟩⟩
  · exact ⟨inv_unattached _ rfl (by decide), .inr rfl⟩
  · exact ⟨inv_unattached _ rfl (by decide), .inl ⟨_, rfl⟩⟩
/-- The same, with an output window attached: GEN1 on one of 65 bytes, and on one that is a byte too short. -/
theorem witness_invariant_attached (n : Nat) :
    (State.withOut (State.withActs v12 [.packet [0x30080000]]) n).Inv := by
  refine ⟨List.Pairwise.nil, Memory.wf_ofBytes _, ?_,
    (by decide : LatchLegal v12 ∧ PopulatedLegal v12)⟩
  rintro len ⟨⟩ off
  show ((Memory.ofBytes (List.replicate n 0)).read off).isSome = true ↔ off < n
  rw [Memory.read_ofBytes, List.getElem?_replicate]
  split <;> simp [*]

end Sys2Proof.Tests
end

section
/-! PROOFS of 00_scope: round counts (R6), words and bytes (R9), the step (R11). -/

namespace Sys2Proof.Machine

/-! Round counts (R6). -/

/-- The counts R6 allows to be accepted at all. -/
abbrev RoundsLegal (rounds : Nat) : Prop := rounds % 2 = 0 ∧ 2 ≤ rounds ∧ rounds ≤ 254

/-- R6 in one line: a legal count that is one of the three fixed ones or one the parameters open. -/
theorem roundsSupported_iff (cfg : Config) (rounds : Nat) :
    roundsSupported cfg rounds = true ↔
      RoundsLegal rounds ∧ (rounds = 8 ∨ rounds = 12 ∨ rounds = 20 ∨ cfg.roundsOpen.getLsbD rounds = true) := by
  simp [roundsSupported, RoundsLegal, and_assoc, or_assoc]

theorem roundsSupported_legal {cfg : Config} {rounds : Nat} (h : roundsSupported cfg rounds = true) :
    RoundsLegal rounds :=
  ((roundsSupported_iff cfg rounds).1 h).1

/-- 8, 12 and 20 are always accepted: the disjuncts that do not read the parameters. -/
theorem roundsSupported_fixed (cfg : Config) :
    roundsSupported cfg 8 = true ∧ roundsSupported cfg 12 = true ∧ roundsSupported cfg 20 = true := by
  simp [roundsSupported_iff, RoundsLegal]

theorem roundsSupported_default_iff (rounds : Nat) :
    roundsSupported Config.default rounds = true ↔ RoundsLegal rounds := by
  refine ⟨roundsSupported_legal, fun legal => ?_⟩
  have opened : Config.default.roundsOpen.getLsbD rounds = true := by
    rw [Config.default, BitVec.getLsbD_allOnes]
    exact decide_eq_true (by omega)
  exact (roundsSupported_iff _ _).2 ⟨legal, .inr (.inr (.inr opened))⟩

/-- The parameters that open exactly the counts p accepts. -/
def configOpening (p : Nat → Bool) : Config :=
  { Config.default with roundsOpen := BitVec.ofFnLE fun r : Fin 256 => p r }

theorem configOpening_roundsOpen (p : Nat → Bool) {rounds : Nat} (h : rounds < 256) :
    (configOpening p).roundsOpen.getLsbD rounds = p rounds := by
  rw [configOpening, BitVec.getLsbD_ofFnLE, dif_pos h]

/-- For a predicate that R6 allows, the parameters built from it accept exactly its counts. -/
theorem roundsSupported_configOpening (p : Nat → Bool) (legal : ∀ rounds, p rounds = true → RoundsLegal rounds)
    (h8 : p 8 = true) (h12 : p 12 = true) (h20 : p 20 = true) (rounds : Nat) :
    roundsSupported (configOpening p) rounds = p rounds := by
  rw [Bool.eq_iff_iff, roundsSupported_iff]
  constructor
  · rintro ⟨hr, rfl | rfl | rfl | opened⟩
    · exact h8
    · exact h12
    · exact h20
    · rwa [configOpening_roundsOpen p (by omega)] at opened
  · intro hp
    have hr := legal rounds hp
    exact ⟨hr, .inr (.inr (.inr ((configOpening_roundsOpen p (by omega)).trans hp)))⟩

/-- Settles O19: every legal predicate is that of the parameters that open exactly its counts. -/
theorem roundsSupportedIsAnyLegalPredicate : Obligations.RoundsSupportedIsAnyLegalPredicate :=
  ⟨fun _ _ => roundsSupported_legal, roundsSupported_fixed,
    fun p legal h8 h12 h20 => ⟨configOpening p, roundsSupported_configOpening p legal h8 h12 h20⟩,
    fun rounds => by rw [Bool.eq_iff_iff, roundsSupported_default_iff, decide_eq_true_iff]⟩

/-! Words and bytes (R9). -/

/-- LE32 as a number: its four bytes are base 256 digits, so nothing wraps. -/
theorem le32_toNat (b0 b1 b2 b3 : Byte) :
    (le32 b0 b1 b2 b3).toNat = b0.toNat + 2 ^ 8 * b1.toNat + 2 ^ 16 * b2.toNat + 2 ^ 24 * b3.toNat := by
  rw [le32, BitVec.toNat_ofNat, Nat.mod_eq_of_lt (by omega)]

/-- A byte of a word as a number: the digit at that bit. -/
theorem extractByte_toNat (w : Word) (bit : Nat) :
    (w.extractLsb' bit 8).toNat = w.toNat / 2 ^ bit % 2 ^ 8 := by
  rw [BitVec.extractLsb'_toNat, Nat.shiftRight_eq_div_pow]

theorem bytes32_le32 (b0 b1 b2 b3 : Byte) : bytes32 (le32 b0 b1 b2 b3) = [b0, b1, b2, b3] := by
  have digit (bit : Nat) (b : Byte) (h : (le32 b0 b1 b2 b3).toNat / 2 ^ bit % 2 ^ 8 = b.toNat) :
      (le32 b0 b1 b2 b3).extractLsb' bit 8 = b :=
    BitVec.eq_of_toNat_eq ((extractByte_toNat _ _).trans h)
  have e := le32_toNat b0 b1 b2 b3
  rw [bytes32, digit 0 b0 (by omega), digit 8 b1 (by omega), digit 16 b2 (by omega), digit 24 b3 (by omega)]

theorem le32_bytes (w : Word) :
    le32 (w.extractLsb' 0 8) (w.extractLsb' 8 8) (w.extractLsb' 16 8) (w.extractLsb' 24 8) = w := by
  apply BitVec.eq_of_toNat_eq
  simp only [le32_toNat, extractByte_toNat]
  omega

theorem le32Groups_bytes32 (w : Word) : le32Groups (bytes32 w) = [w] :=
  congrArg (fun v => [v]) (le32_bytes w)

/-- Settles O32: both ways round, by the base 256 digits of a word. -/
theorem littleEndianWordsAndBytesAreInverse : Obligations.LittleEndianWordsAndBytesAreInverse :=
  ⟨bytes32_le32, le32Groups_bytes32⟩

/-! The step (R11). -/

/-- Everything a step that goes on can be: a wait, or the host's oldest act on the state with that act taken. -/
theorem step_next {s t : State} (h : step s = .next t) :
    (s.pending = [] ∧ t = s) ∨
    ∃ act rest, s.pending = act :: rest ∧ performAct act { s with pending := rest } = .next t := by
  cases hp : s.pending with
  | nil =>
    rw [step_nil s hp] at h
    cases h
    exact .inl ⟨rfl, rfl⟩
  | cons act rest => exact .inr ⟨act, rest, rfl, step_cons s act rest hp ▸ h⟩

/-- A packet that decodes, at an engine with no fault, is executed (R121). -/
theorem presentPacket_command {packet : List Word} {s : State} {i : Instr} (hf : s.fault = false)
    (hd : decode packet = .command i) : presentPacket packet s = exec i s := by
  simp [presentPacket, hf, hd]

/-- Settles O7: the step takes the packet, and the command port executes what it decodes to. -/
theorem stepRunsTheDecodedCommand : Obligations.StepRunsTheDecodedCommand := by
  intro s packet rest i hp hf hd
  calc step s = performAct (.packet packet) { s with pending := rest } := step_cons s _ rest hp
    _ = presentPacket packet { s with pending := rest } := rfl
    _ = exec i { s with pending := rest } := presentPacket_command hf hd

/-! The model's own fields (log entries 1, 2). -/

/-- The fields that are no state of the engine, the parameters and the host's acts to come, are the same. -/
structure SameHost (s t : State) : Prop where
  cfg : t.cfg = s.cfg
  pending : t.pending = s.pending

theorem GenerationFrame.sameHost {s t : State} (h : GenerationFrame s t) : SameHost s t := by
  constructor <;> rw [h.rest]

theorem exec_sameHost {i : Instr} {s t : State} (h : exec i s = .next t) : SameHost s t := by
  rcases exec_next i s t h with ⟨c, rfl⟩ | ⟨_, _, _, _, _, _, -, -, rfl⟩ | ⟨_, _, _, _, _, -, rfl⟩ | ⟨-, rfl⟩ |
    ⟨_, _, _, -, -, -, frame⟩
  case inr.inr.inr.inr => exact frame.sameHost
  all_goals exact ⟨rfl, rfl⟩

theorem presentPacket_sameHost {packet : List Word} {s t : State} (h : presentPacket packet s = .next t) :
    SameHost s t := by
  rcases presentPacket_cases packet s with ⟨-, e⟩ | ⟨-, i, -, e⟩ | ⟨-, r, -, -, e⟩ | ⟨-, r, -, -, e⟩ <;> rw [e] at h
  · cases h; exact ⟨rfl, rfl⟩
  · exact exec_sameHost h
  · cases h; exact ⟨rfl, rfl⟩
  · cases h

theorem performAct_sameHost {act : HostAct} {s t : State} (h : performAct act s = .next t) : SameHost s t := by
  cases act with
  | attachIn bytes => cases h; exact ⟨rfl, rfl⟩
  | attachOut bytes => cases h; exact ⟨rfl, rfl⟩
  | packet words => exact presentPacket_sameHost h
  | read index =>
    simp only [performAct] at h
    split at h
    · cases h; exact ⟨rfl, rfl⟩
    · cases h
  | reset => cases h; exact ⟨rfl, rfl⟩

/-- Settles O58: a wait changes nothing, and no act changes the parameters or the acts behind it. -/
theorem instanceIsFixedAndActsAreTakenInOrder : Obligations.InstanceIsFixedAndActsAreTakenInOrder := by
  intro s t h
  rcases step_next h with ⟨hp, rfl⟩ | ⟨act, rest, hp, hact⟩
  · exact ⟨rfl, by rw [hp]; rfl⟩
  · have same := performAct_sameHost hact
    exact ⟨same.cfg, by rw [hp]; exact same.pending⟩

end Sys2Proof.Machine
end

section
/-! PROOFS of 10_state: what one act of the host does to the state, the invariant, STATUS, the read port, reset, and
the memory image of a setup. -/

namespace Sys2Proof.Machine

/-! The bytes of OUT a generation command writes (20_memory R34). -/

/-- From s to t every offset of OUT from a on and below b got a byte, and every other offset is as it was. -/
structure OutWritten (a b : Nat) (s t : State) : Prop where
  inside : ∀ off, a ≤ off → off < b → (t.outWin.read off).isSome = true
  outside : ∀ off, off < a ∨ b ≤ off → t.outWin.read off = s.outWin.read off

theorem OutWritten.refl (a : Nat) (s : State) : OutWritten a a s s :=
  ⟨fun _ _ _ => by omega, fun _ _ => rfl⟩

/-- Two writes in a row, the second from where the first ended. -/
theorem OutWritten.trans {a b c : Nat} {s t u : State} (first : OutWritten a b s t) (second : OutWritten b c t u)
    (hab : a ≤ b) (hbc : b ≤ c) : OutWritten a c s u where
  inside off ha hc := by
    by_cases hb : off < b
    · rw [second.outside off (.inl hb)]
      exact first.inside off ha hb
    · exact second.inside off (by omega) hc
  outside off h := by
    rw [second.outside off (by omega), first.outside off (by omega)]

theorem writeOut_written (off : Nat) (bytes : List Byte) (s : State) :
    OutWritten off (off + bytes.length) s (s.writeOut off bytes) where
  inside a h1 h2 := by
    rw [State.writeOut_outWin, Memory.read_writeBytes, if_pos ⟨h1, h2⟩, isSome_getElem?]
    omega
  outside a h := by
    rw [State.writeOut_outWin, Memory.read_writeBytes, if_neg (by omega)]

theorem storeBlock_written {x : Bool} {off : Nat} {ks : List Byte} {s t : State} (hks : ks.length = 64)
    (h : storeBlock x off ks s = some t) : OutWritten off (off + 64) s t := by
  rw [storeBlock_eq, Option.map_eq_some_iff] at h
  obtain ⟨bytes, hb, rfl⟩ := h
  have length : bytes.length = 64 := (storedBytes_spec x off ks s.inWin bytes hks hb).1
  exact length ▸ writeOut_written off bytes s

/-- The counter advance writes no window. -/
theorem OutWritten.advanceBy {a b n : Nat} {s t : State} (h : OutWritten a b s t) :
    OutWritten a b s (t.advanceBy n) := ⟨h.inside, h.outside⟩

theorem scalarBlock_written {x : Bool} {rounds off : Nat} {s t : State}
    (h : scalarBlock x rounds off s = some t) : OutWritten off (off + 64) s t := by
  simp only [scalarBlock] at h
  split at h
  · next u hu =>
    cases h
    exact (storeBlock_written (keystream_length _ _) hu).advanceBy
  · cases h

theorem storeBlocks_written {x : Bool} {blocks : List (List Byte)} {off : Nat} {s t : State}
    (hks : ∀ ks ∈ blocks, ks.length = 64) (h : storeBlocks x blocks off s = some t) :
    OutWritten off (off + 64 * blocks.length) s t := by
  induction blocks generalizing off s with
  | nil => cases h; exact .refl off _
  | cons ks rest ih =>
    simp only [storeBlocks] at h
    split at h
    · next u hu =>
      have first := storeBlock_written (hks ks List.mem_cons_self) hu
      have others := ih (fun ks hm => hks ks (List.mem_cons_of_mem _ hm)) h
      rw [show off + 64 * (ks :: rest).length = off + 64 + 64 * rest.length by rw [List.length_cons]; omega]
      exact first.trans others (by omega) (by omega)
    · cases h

theorem wideBlocks_length (n : Nat) (conv : Conv) (s : Regs Word) (rounds : Nat) :
    (wideBlocks n conv s rounds).length = n := laneBlocks_length _

theorem length_of_mem_wideBlocks {n rounds : Nat} {conv : Conv} {s : Regs Word} {ks : List Byte}
    (h : ks ∈ wideBlocks n conv s rounds) : ks.length = 64 := by
  obtain ⟨i, rfl⟩ := List.mem_ofFn.1 h
  exact serialise_length _

theorem wideGroup_written {n : Nat} {x : Bool} {rounds off : Nat} {s t : State}
    (h : wideGroup n x rounds off s = some t) : OutWritten off (off + 64 * n) s t := by
  simp only [wideGroup] at h
  split at h
  · next u hu =>
    cases h
    have stored := storeBlocks_written (fun _ => length_of_mem_wideBlocks) hu
    rw [wideBlocks_length] at stored
    exact stored.advanceBy
  · cases h

theorem runGroup_written {b : Backend} {x : Bool} {rounds off : Nat} {s t : State}
    (h : runGroup b x rounds off s = some t) : OutWritten off (off + 64 * b.width) s t := by
  cases b with
  | scalar => exact scalarBlock_written h
  | v4 => exact wideGroup_written h
  | v8 => exact wideGroup_written h

theorem runSchedule_written {x : Bool} {rounds : Nat} {groups : List Backend} {off : Nat} {s t : State}
    (h : runSchedule x rounds groups off s = some t) :
    OutWritten off (off + 64 * (groups.map Backend.width).sum) s t := by
  induction groups generalizing off s with
  | nil => cases h; exact .refl off _
  | cons b rest ih =>
    simp only [runSchedule] at h
    split at h
    · next u hu =>
      rw [List.map_cons, List.sum_cons, Nat.mul_add, ← Nat.add_assoc]
      exact (runGroup_written hu).trans (ih h) (by omega) (by omega)
    · cases h

theorem drain_widths (hasV4 : Bool) (remaining : Nat) :
    ((drain hasV4 remaining).map Backend.width).sum = remaining := by
  unfold drain
  split
  · next h => rw [h.1]; rfl
  · simp [Backend.width]

/-- The widths of a schedule add up to the blocks it was made for (R107). -/
theorem schedule_widths (hasV4 : Bool) (pref : Backend) (nb : Nat) :
    ((schedule hasV4 pref nb).map Backend.width).sum = nb := by
  rw [schedule, List.map_append, List.sum_append, drain_widths, List.map_replicate, List.sum_replicate,
    smul_eq_mul, Nat.mul_comm]
  exact Nat.div_add_mod nb pref.width

/-! The four generation commands under one name. -/

/-- The run of a generation command, once it is accepted (R85, R100, R101, R104). -/
def GenKind.run (k : GenKind) (x : Bool) (rounds : Nat) (s : State) : Option State :=
  match k with
  | .one => scalarBlock x rounds 0 s
  | .four => wideGroup 4 x rounds 0 s
  | .eight => wideGroup 8 x rounds 0 s
  | .dispatch pref len => runSchedule x rounds (schedule s.cfg.hasV4 pref (blockCount len)) 0 s

theorem exec_generation (k : GenKind) (x : Bool) (rounds : Nat) (s : State) :
    exec (k.command x rounds) s =
      accepted (generationCause (roundsSupported s.cfg rounds) (k.backend.available s.cfg) s.valid) k.blocks
        (k.run x rounds s) s := by
  cases k <;> rfl

theorem GenKind.run_written {k : GenKind} {x : Bool} {rounds : Nat} {s t : State}
    (h : k.run x rounds s = some t) : OutWritten 0 (64 * k.blocks) s t := by
  rw [← Nat.zero_add (64 * k.blocks)]
  cases k with
  | one => exact scalarBlock_written h
  | four => exact wideGroup_written h
  | eight => exact wideGroup_written h
  | dispatch pref len =>
    have written := runSchedule_written h
    rwa [schedule_widths] at written

/-- A generation command that goes on has faulted, or has written its blocks. -/
theorem exec_generation_written {k : GenKind} {x : Bool} {rounds : Nat} {s t : State}
    (h : exec (k.command x rounds) s = .next t) :
    (∃ c, t = raiseFault c s) ∨ OutWritten 0 (64 * k.blocks) s t := by
  rw [exec_generation] at h
  rcases accepted_next _ _ _ _ _ h with ⟨c, -, ht⟩ | ⟨-, -, ht⟩
  · exact .inl ⟨c, ht⟩
  · exact .inr (GenKind.run_written ht)

/-- Where no setup has completed every generation command faults (R20, R121). -/
theorem exec_generation_of_not_valid (k : GenKind) (x : Bool) (rounds : Nat) {s : State} (h : s.valid = false) :
    ∃ c, exec (k.command x rounds) s = .next (raiseFault c s) := by
  rw [exec_generation]
  rcases generationCause_cases (roundsSupported s.cfg rounds) (k.backend.available s.cfg) s.valid with
    ⟨-, e⟩ | ⟨-, -, e⟩ | ⟨-, -, -, e⟩ | ⟨-, -, valid, -⟩
  case inr.inr.inr => rw [h] at valid; cases valid
  all_goals exact ⟨_, by rw [e, accepted_some]⟩

/-! Everything an act of the host can do. -/

/-- The words and CONV a setup may leave: the 32-byte tag, or under ORIGINAL the 16-byte tag and a mirrored key
(R14, R15). -/
def SetupLayout (v : Regs Word) (conv : Conv) : Prop :=
  HasTag v tag32 ∨ (HasTag v tag16 ∧ Mirrored v ∧ conv = .original)

theorem originalWords_layout (keybits : Nat) (key : KeyWords) (c0 c1 n0 n1 : Word) :
    SetupLayout (originalWords keybits key c0 c1 n0 n1) .original := by
  unfold originalWords
  split
  · exact .inl ⟨rfl, rfl, rfl, rfl⟩
  · exact .inr ⟨⟨rfl, rfl, rfl, rfl⟩, ⟨rfl, rfl, rfl, rfl⟩, rfl⟩

/-- Everything an act that goes on can make of a state, one constructor per way: a packet is ignored by a halted engine,
and on a running one it faults, is a setup, is ZEROIZE, or is a generation command that was accepted (R11, R121, R123,
R131). -/
inductive Performed (s : State) : HostAct → State → Prop
  | attachedIn (bytes : List Byte) : Performed s (.attachIn bytes) { s with inWin := Memory.ofBytes bytes }
  | attachedOut (bytes : List Byte) : Performed s (.attachOut bytes)
      { s with outWin := Memory.ofBytes bytes, outLen := some bytes.length }
  | read (index : Nat) : Performed s (.read index) s
  | reset : Performed s .reset (resetEngine s)
  | ignored (words : List Word) (halted : s.fault = true) : Performed s (.packet words) s
  | faulted (words : List Word) (c : Cause) (running : s.fault = false) : Performed s (.packet words) (raiseFault c s)
  | populated {words : List Word} {i : Instr} {v : Regs Word} {conv : Conv} (running : s.fault = false)
      (decoded : decode words = .command i) (setup : IsSetup i) (layout : SetupLayout v conv) :
      Performed s (.packet words) (s.populate v conv)
  | destroyed {words : List Word} (running : s.fault = false) (decoded : decode words = .command .zeroize) :
      Performed s (.packet words) s.destroy
  | generated {words : List Word} {k : GenKind} {x : Bool} {rounds : Nat} {t : State} (running : s.fault = false)
      (decoded : decode words = .command (k.command x rounds)) (ready : Ready k.backend rounds s)
      (room : OutputHolds s (64 * k.blocks)) (frame : GenerationFrame s t)
      (written : OutWritten 0 (64 * k.blocks) s t) : Performed s (.packet words) t

theorem exec_performed {words : List Word} {i : Instr} {s t : State} (running : s.fault = false)
    (decoded : decode words = .command i) (h : exec i s = .next t) : Performed s (.packet words) t := by
  rcases exec_next i s t h with ⟨c, rfl⟩ | ⟨_, _, _, _, _, _, rfl, -, rfl⟩ | ⟨_, _, _, _, _, rfl, rfl⟩ | ⟨rfl, rfl⟩ |
    ⟨k, x, rounds, rfl, ready, room, frame⟩
  · exact .faulted words c running
  · exact .populated running decoded trivial (originalWords_layout ..)
  · exact .populated running decoded trivial (.inl ⟨rfl, rfl, rfl, rfl⟩)
  · exact .destroyed running decoded
  · rcases exec_generation_written h with ⟨c, rfl⟩ | written
    · exact .faulted words c running
    · exact .generated running decoded ready room frame written

theorem presentPacket_performed {words : List Word} {s t : State} (h : presentPacket words s = .next t) :
    Performed s (.packet words) t := by
  rcases presentPacket_cases words s with ⟨halted, e⟩ | ⟨running, i, decoded, e⟩ | ⟨running, r, -, -, e⟩ |
    ⟨-, r, -, -, e⟩ <;> rw [e] at h
  · cases h; exact .ignored words halted
  · exact exec_performed running decoded h
  · cases h; exact .faulted words _ running
  · cases h

theorem performAct_performed {act : HostAct} {s t : State} (h : performAct act s = .next t) : Performed s act t := by
  cases act with
  | attachIn bytes => cases h; exact .attachedIn bytes
  | attachOut bytes => cases h; exact .attachedOut bytes
  | packet words => exact presentPacket_performed h
  | read index =>
    simp only [performAct] at h
    split at h
    · cases h; exact .read index
    · cases h
  | reset => cases h; exact .reset

/-- Everything a step that goes on can be, with what its act did. -/
theorem step_performed {s t : State} (h : step s = .next t) :
    (s.pending = [] ∧ t = s) ∨
    ∃ act rest, s.pending = act :: rest ∧ Performed { s with pending := rest } act t :=
  (step_next h).imp_right fun ⟨act, rest, hp, hact⟩ => ⟨act, rest, hp, performAct_performed hact⟩

/-- What no act can break, and does not depend on the acts to come, every step keeps. -/
theorem step_preserves {P : State → Prop} (taken : ∀ s rest, P s → P { s with pending := rest })
    (acted : ∀ s act t, Performed s act t → P s → P t) {s t : State} (h : step s = .next t) (hs : P s) : P t := by
  rcases step_performed h with ⟨-, rfl⟩ | ⟨act, rest, -, hact⟩
  · exact hs
  · exact acted _ act t hact (taken s rest hs)

/-! What a completed generation command leaves of the other fields. -/

theorem GenerationFrame.valid {s t : State} (h : GenerationFrame s t) : t.valid = s.valid := by rw [h.rest]
theorem GenerationFrame.fault {s t : State} (h : GenerationFrame s t) : t.fault = s.fault := by rw [h.rest]
theorem GenerationFrame.cause {s t : State} (h : GenerationFrame s t) : t.cause = s.cause := by rw [h.rest]
theorem GenerationFrame.inWin {s t : State} (h : GenerationFrame s t) : t.inWin = s.inWin := by rw [h.rest]
theorem GenerationFrame.outLen {s t : State} (h : GenerationFrame s t) : t.outLen = s.outLen := by rw [h.rest]

/-! The invariant, part by part. -/

theorem latchLegal_raiseFault (c : Cause) (s : State) : LatchLegal (raiseFault c s) :=
  ⟨fun h => (by cases h), fun _ => c.code_range⟩

theorem latchLegal_resetEngine (s : State) : LatchLegal (resetEngine s) := ⟨fun _ => rfl, fun h => (by cases h)⟩

theorem Performed.latchLegal {s t : State} {act : HostAct} (h : Performed s act t) (hs : LatchLegal s) :
    LatchLegal t := by
  cases h with
  | faulted words c running => exact latchLegal_raiseFault c s
  | reset => exact latchLegal_resetEngine s
  | generated running decoded ready room frame written => rwa [LatchLegal, frame.fault, frame.cause]
  | _ => exact hs

theorem populatedLegal_resetEngine (s : State) : PopulatedLegal (resetEngine s) :=
  ⟨fun _ => ⟨rfl, rfl⟩, fun h => (by cases h)⟩

theorem Performed.populatedLegal {s t : State} {act : HostAct} (h : Performed s act t) (hs : PopulatedLegal s) :
    PopulatedLegal t := by
  cases h with
  | populated running decoded setup layout => exact ⟨fun h => (by cases h), fun _ => layout⟩
  | destroyed running decoded => exact ⟨fun _ => ⟨rfl, rfl⟩, fun h => (by cases h)⟩
  | reset => exact populatedLegal_resetEngine s
  | generated running decoded ready room frame written =>
    obtain ⟨-, -, valid⟩ := ready
    refine ⟨fun h => ?_, fun _ => ?_⟩
    · rw [frame.valid, valid] at h; cases h
    · rw [frame.words, frame.conv]
      exact hs.2 valid
  | _ => exact hs

theorem Performed.inWin_wf {s t : State} {act : HostAct} (h : Performed s act t) (hs : s.inWin.wf) : t.inWin.wf := by
  cases h with
  | attachedIn bytes => exact Memory.wf_ofBytes bytes
  | reset => exact List.Pairwise.nil
  | generated running decoded ready room frame written => rwa [frame.inWin]
  | _ => exact hs

theorem Performed.outWin_wf {s t : State} {act : HostAct} (h : Performed s act t) (hs : s.outWin.wf) :
    t.outWin.wf := by
  cases h with
  | attachedOut bytes => exact Memory.wf_ofBytes bytes
  | reset => exact List.Pairwise.nil
  | generated running decoded ready room frame written => exact frame.wf hs
  | _ => exact hs

theorem outFilled_unattached {s : State} (h : s.outLen = none) : OutFilled s := by
  intro len hl
  rw [h] at hl
  cases hl

theorem outFilled_attached (s : State) (bytes : List Byte) :
    OutFilled { s with outWin := Memory.ofBytes bytes, outLen := some bytes.length } := by
  rintro len ⟨⟩ off
  rw [Memory.read_ofBytes, isSome_getElem?]

/-- A write below n keeps a window filled that has room for n bytes. -/
theorem OutWritten.outFilled {n : Nat} {s t : State} (h : OutWritten 0 n s t) (room : OutputHolds s n)
    (same : t.outLen = s.outLen) (hs : OutFilled s) : OutFilled t := by
  intro len hl off
  rw [same] at hl
  have fits : n ≤ len := by
    rw [OutputHolds, outRoom_attached s n len hl] at room
    exact of_decide_eq_true room
  by_cases below : off < n
  · exact iff_of_true (h.inside off (by omega) below) (by omega)
  · rw [h.outside off (by omega)]
    exact hs len hl off

theorem Performed.outFilled {s t : State} {act : HostAct} (h : Performed s act t) (hs : OutFilled s) :
    OutFilled t := by
  cases h with
  | attachedOut bytes => exact outFilled_attached s bytes
  | reset => exact outFilled_unattached rfl
  | generated running decoded ready room frame written => exact written.outFilled room frame.outLen hs
  | _ => exact hs

theorem inv_resetEngine (s : State) : (resetEngine s).Inv :=
  ⟨.nil, .nil, outFilled_unattached rfl, latchLegal_resetEngine s, populatedLegal_resetEngine s⟩

theorem Performed.inv {s t : State} {act : HostAct} (h : Performed s act t) (hs : s.Inv) : t.Inv := by
  obtain ⟨inWin, outWin, filled, latch, population⟩ := hs
  exact ⟨h.inWin_wf inWin, h.outWin_wf outWin, h.outFilled filled, h.latchLegal latch, h.populatedLegal population⟩

/-- Settles O57: no act breaks any part of the invariant. -/
theorem everyStepKeepsTheInvariant : Obligations.EveryStepKeepsTheInvariant := by
  intro s t hs h
  exact step_preserves (P := State.Inv) (fun _ _ hs => hs) (fun _ _ _ hact => hact.inv) h hs

/-- Settles O56: reset leaves nothing that could break a part of it. -/
theorem invariantAtReset : Obligations.InvariantAtReset := by
  intro cfg acts
  exact inv_resetEngine { State.reset with cfg := cfg, pending := acts }

/-! Who may change the words, VALID and CONV (R19, R20, R31). -/

/-- Settles O24: an act that is none of the three keeps the words, or is a generation command and keeps all but the
counter. -/
theorem keyNonceAndConstantsNeverChange : Obligations.KeyNonceAndConstantsNeverChange := by
  intro s t _ h noSetup noZeroize noReset
  rcases step_performed h with ⟨-, rfl⟩ | ⟨act, rest, hp, hact⟩
  · exact ⟨rfl, fun _ => rfl⟩
  · cases hact with
    | populated running decoded setup layout => exact absurd ⟨_, rest, _, hp, decoded, setup⟩ noSetup
    | destroyed running decoded => exact absurd ⟨_, rest, _, hp, decoded, rfl⟩ noZeroize
    | reset => exact absurd ⟨rest, hp⟩ noReset
    | generated running decoded ready room frame written => exact ⟨frame.words, frame.nonce⟩
    | _ => exact ⟨rfl, fun _ => rfl⟩

/-- What a step does to VALID and CONV: it keeps both, or it is a setup and sets VALID, or it is ZEROIZE or a reset and
clears VALID. -/
theorem step_control {s t : State} (h : step s = .next t) :
    (t.valid = s.valid ∧ t.conv = s.conv) ∨ (NextCommand s IsSetup ∧ t.valid = true) ∨
    ((NextCommand s (fun i => i = .zeroize) ∨ NextReset s) ∧ t.valid = false) := by
  rcases step_performed h with ⟨-, rfl⟩ | ⟨act, rest, hp, hact⟩
  · exact .inl ⟨rfl, rfl⟩
  · cases hact with
    | populated running decoded setup layout => exact .inr (.inl ⟨⟨_, rest, _, hp, decoded, setup⟩, rfl⟩)
    | destroyed running decoded => exact .inr (.inr ⟨.inl ⟨_, rest, _, hp, decoded, rfl⟩, rfl⟩)
    | reset => exact .inr (.inr ⟨.inr ⟨rest, hp⟩, rfl⟩)
    | generated running decoded ready room frame written => exact .inl ⟨frame.valid, frame.conv⟩
    | _ => exact .inl ⟨rfl, rfl⟩

/-- Settles O25: a step that keeps neither field is one of the three, and each of them sets VALID one way only. -/
theorem validAndConvChangeOnlyBySetupZeroizeReset : Obligations.ValidAndConvChangeOnlyBySetupZeroizeReset := by
  intro s t h
  rcases step_control h with ⟨hv, hc⟩ | ⟨setup, hv⟩ | ⟨cleared, hv⟩ <;> rw [hv]
  · exact ⟨fun h0 h1 => absurd (h0.symm.trans h1) Bool.false_ne_true,
      fun h1 h0 => absurd (h0.symm.trans h1) Bool.false_ne_true, absurd hc⟩
  · exact ⟨fun _ _ => setup, fun _ h => absurd h.symm Bool.false_ne_true, fun _ => .inl setup⟩
  · exact ⟨fun _ h => absurd h Bool.false_ne_true, fun _ _ => cleared, fun _ => .inr cleared⟩

/-! STATUS (R22). -/

theorem statusWord_toNat (s : State) :
    (statusWord s).toNat = s.valid.toNat + s.fault.toNat * 2 + s.conv.bit.toNat * 4 + s.cause.toNat * 2 ^ 4 := by
  have hv := s.valid.toNat_lt
  have hf := s.fault.toNat_lt
  have hc := s.conv.bit.toNat_lt
  rw [statusWord, BitVec.toNat_ofNat, Nat.mod_eq_of_lt (by omega)]

/-- A bit of a word is its binary digit there. -/
theorem getLsbD_of_digit {w : Word} {i : Nat} {b : Bool} (h : w.toNat / 2 ^ i % 2 = b.toNat) : w.getLsbD i = b := by
  rw [BitVec.getLsbD, Nat.testBit_eq_decide_div_mod_eq, h]
  cases b <;> rfl

theorem statusWord_bits (s : State) :
    (statusWord s).getLsbD 0 = s.valid ∧ (statusWord s).getLsbD 1 = s.fault ∧
    (statusWord s).getLsbD 2 = s.conv.bit ∧ (statusWord s).getLsbD 3 = false ∧
    (statusWord s).extractLsb' 4 4 = s.cause ∧ (statusWord s).extractLsb' 8 24 = 0 := by
  have e := statusWord_toNat s
  have hv := s.valid.toNat_lt
  have hf := s.fault.toNat_lt
  have hc := s.conv.bit.toNat_lt
  refine ⟨getLsbD_of_digit (by omega), getLsbD_of_digit (by omega), getLsbD_of_digit (by omega),
    getLsbD_of_digit (by rw [Bool.toNat_false]; omega), BitVec.eq_of_toNat_eq ?_, BitVec.eq_of_toNat_eq ?_⟩
  all_goals rw [BitVec.extractLsb'_toNat, Nat.shiftRight_eq_div_pow]
  · omega
  · rw [BitVec.ofNat_eq_ofNat, BitVec.toNat_zero]; omega

/-- Settles O14: the bits are the digits of the sum R22 writes, and no act breaks the latch. -/
theorem statusBits : Obligations.StatusBits :=
  ⟨statusWord_bits, latchLegal_resetEngine State.reset,
    fun _ _ hs h => step_preserves (P := LatchLegal) (fun _ _ hs => hs) (fun _ _ _ hact => hact.latchLegal) h hs⟩

/-! The read port (R23). -/

theorem readPort_word (s : State) {index : Nat} (h : index < 16) : readPort s index = s.words.toList[index]? :=
  List.getElem?_append_left h

theorem readPort_status (s : State) : readPort s 16 = some (statusWord s) := rfl

theorem readPort_beyond (s : State) {index : Nat} (h : 16 < index) : readPort s index = none :=
  List.getElem?_eq_none h

theorem readPort_some (s : State) {index : Nat} (h : index ≤ 16) : ∃ w, readPort s index = some w :=
  ⟨_, List.getElem?_eq_getElem (Nat.lt_succ_of_le h)⟩

theorem performAct_read_some {s : State} {index : Nat} {w : Word} (h : readPort s index = some w) :
    performAct (.read index) s = .next s := by
  simp only [performAct, h]

theorem performAct_read_none {s : State} {index : Nat} (h : readPort s index = none) :
    performAct (.read index) s = .fault (.noSuchReadIndex index) := by
  simp only [performAct, h]

/-- Only a packet and a reset write words and control fields. -/
theorem Performed.registers {s t : State} {act : HostAct} (h : Performed s act t)
    (notPacket : ∀ packet, act ≠ .packet packet) (notReset : act ≠ .reset) :
    t.words = s.words ∧ t.conv = s.conv ∧ t.valid = s.valid ∧ t.fault = s.fault ∧ t.cause = s.cause := by
  cases h with
  | attachedIn bytes => exact ⟨rfl, rfl, rfl, rfl, rfl⟩
  | attachedOut bytes => exact ⟨rfl, rfl, rfl, rfl, rfl⟩
  | read index => exact ⟨rfl, rfl, rfl, rfl, rfl⟩
  | reset => exact absurd rfl notReset
  | _ => exact absurd rfl (notPacket _)

/-- Settles O15: the seventeen indices of the read port, and the acts that write no register. -/
theorem readPortReadsAndChangesNothing : Obligations.ReadPortReadsAndChangesNothing := by
  intro s
  refine ⟨fun _ => readPort_word s, readPort_status s, fun _ => readPort_beyond s, fun index rest hp h => ?_,
    fun index rest hp h => ?_, fun act rest t hp notPacket notReset h => ?_⟩
  · obtain ⟨w, hw⟩ := readPort_some { s with pending := rest } h
    rw [step_cons s _ rest hp, performAct_read_some hw]
  · rw [step_cons s _ rest hp, performAct_read_none (readPort_beyond _ h)]
  · rw [step_cons s act rest hp] at h
    exact (performAct_performed h).registers notPacket notReset

/-! Reset (R32). -/

/-- Settles O17: the fields by what State.reset says, the faults by VALID = 0. -/
theorem resetLeavesZeros : Obligations.ResetLeavesZeros :=
  ⟨rfl, rfl, rfl, rfl, rfl, rfl, rfl, rfl, rfl, fun cfg k x rounds =>
    exec_generation_of_not_valid k x rounds (s := { State.reset with cfg := cfg }) rfl⟩

/-! Byte-string operands and the memory image (R14 to R18; 30_encoding R56). -/

/-- Words read from whole groups of bytes are those bytes again. -/
theorem flatMap_bytes32_le32Groups (bytes : List Byte) (h : bytes.length % 4 = 0) :
    (le32Groups bytes).flatMap bytes32 = bytes := by
  induction bytes using le32Groups.induct with
  | case1 b0 b1 b2 b3 rest ih =>
    simp only [List.length_cons] at h
    rw [le32Groups, List.flatMap_cons, bytes32_le32, ih (by omega)]
    rfl
  | case2 bytes few =>
    match bytes with
    | [] => rfl
    | [_] | [_, _] | [_, _, _] => simp at h
    | b0 :: b1 :: b2 :: b3 :: rest => exact absurd rfl (few b0 b1 b2 b3 rest)

/-- Bytes that make n whole groups are n words, and the words are the bytes again. -/
theorem le32Groups_whole {bytes : List Byte} {n : Nat} (h : bytes.length = 4 * n) :
    (le32Groups bytes).length = n ∧ (le32Groups bytes).flatMap bytes32 = bytes := by
  have image := flatMap_bytes32_le32Groups bytes (by omega)
  have count := flatMap_bytes32_length (le32Groups bytes)
  rw [image] at count
  exact ⟨by omega, image⟩

/-- The key words of a key string are its bytes, and zeros where a shorter key leaves words over. -/
theorem keyWordsOf_image {key : List Byte} (whole : key.length % 4 = 0) (fits : key.length ≤ 32) :
    ∃ k, keyWordsOf key = some k ∧ k.toList.flatMap bytes32 = key ++ List.replicate (32 - key.length) 0 := by
  have length : (key ++ List.replicate (32 - key.length) (0 : Byte)).length = 32 := by
    rw [List.length_append, List.length_replicate]; omega
  obtain ⟨count, image⟩ := le32Groups_whole (n := 8) length
  match e : le32Groups (key ++ List.replicate (32 - key.length) 0), count with
  | [k0, k1, k2, k3, k4, k5, k6, k7], _ =>
    rw [e] at image
    exact ⟨⟨k0, k1, k2, k3, k4, k5, k6, k7⟩, by simp only [keyWordsOf, whole, fits, e, and_self, if_true], image⟩

theorem keyWordsOf_length_32 {key : List Byte} (h : key.length = 32) :
    ∃ k, keyWordsOf key = some k ∧ k.toList.flatMap bytes32 = key := by
  obtain ⟨k, hk, image⟩ := keyWordsOf_image (by rw [h]) (Nat.le_of_eq h)
  rw [h, Nat.sub_self, List.replicate_zero, List.append_nil] at image
  exact ⟨k, hk, image⟩

theorem keyWordsOf_length_16 {key : List Byte} (h : key.length = 16) :
    ∃ k, keyWordsOf key = some k ∧ (mirrorKey k).toList.flatMap bytes32 = key ++ key := by
  obtain ⟨k, hk, image⟩ := keyWordsOf_image (by rw [h]) (by omega)
  have parts : [k.k0, k.k1, k.k2, k.k3].flatMap bytes32 ++ [k.k4, k.k5, k.k6, k.k7].flatMap bytes32 =
      key ++ List.replicate (32 - key.length) 0 := image
  have half : [k.k0, k.k1, k.k2, k.k3].flatMap bytes32 = key :=
    List.append_inj_left parts (by rw [flatMap_bytes32_length, h]; rfl)
  refine ⟨k, hk, ?_⟩
  calc (mirrorKey k).toList.flatMap bytes32
      = ([k.k0, k.k1, k.k2, k.k3] ++ [k.k0, k.k1, k.k2, k.k3]).flatMap bytes32 := rfl
    _ = key ++ key := by rw [List.flatMap_append, half]

/-- The bytes of a number, least significant first. -/
def littleEndian (n c : Nat) : List Byte := (List.range n).map fun b => BitVec.ofNat 8 (c / 2 ^ (8 * b))

theorem bytes32_ofNat (c : Nat) : bytes32 (BitVec.ofNat 32 c) = littleEndian 4 c := by
  have digit (bit : Nat) (h : c % 2 ^ 32 / 2 ^ bit % 2 ^ 8 = c / 2 ^ bit % 2 ^ 8) :
      (BitVec.ofNat 32 c).extractLsb' bit 8 = BitVec.ofNat 8 (c / 2 ^ bit) := by
    apply BitVec.eq_of_toNat_eq
    rw [extractByte_toNat, BitVec.toNat_ofNat, BitVec.toNat_ofNat, h]
  rw [bytes32, digit 0 (by omega), digit 8 (by omega), digit 16 (by omega), digit 24 (by omega)]
  rfl

/-- The low and the high word of a 64-bit counter, as bytes. -/
theorem bytes32_counter (c : Nat) :
    bytes32 (BitVec.ofNat 32 (c % 2 ^ 32)) ++ bytes32 (BitVec.ofNat 32 (c / 2 ^ 32)) = littleEndian 8 c := by
  have low : BitVec.ofNat 32 (c % 2 ^ 32) = BitVec.ofNat 32 c := BitVec.eq_of_toNat_eq (by simp)
  rw [low, bytes32_ofNat, bytes32_ofNat]
  simp [littleEndian, List.range_succ, Nat.div_div_eq_div_mul]

/-- The memory image of a laid out State, part by part (R18). -/
theorem serialise_layout (t : Tag) (k : KeyWords) (w12 w13 w14 w15 : Word) :
    serialise (layout t k w12 w13 w14 w15) =
      [t.t0, t.t1, t.t2, t.t3].flatMap bytes32 ++ k.toList.flatMap bytes32 ++
        [w12, w13, w14, w15].flatMap bytes32 := rfl

/-- The bytes of the tag of a 256-bit key (R66). -/
theorem tag32_bytes : [tag32.t0, tag32.t1, tag32.t2, tag32.t3].flatMap bytes32 =
    [0x65, 0x78, 0x70, 0x61, 0x6e, 0x64, 0x20, 0x33, 0x32, 0x2d, 0x62, 0x79, 0x74, 0x65, 0x20, 0x6b] := by decide

/-- The bytes of the tag of a 128-bit key (R66). -/
theorem tag16_bytes : [tag16.t0, tag16.t1, tag16.t2, tag16.t3].flatMap bytes32 =
    [0x65, 0x78, 0x70, 0x61, 0x6e, 0x64, 0x20, 0x31, 0x36, 0x2d, 0x62, 0x79, 0x74, 0x65, 0x20, 0x6b] := by decide

theorem nonceWords_two {nonce : List Byte} (h : nonce.length = 8) :
    ∃ n0 n1, le32Groups nonce = [n0, n1] ∧ [n0, n1].flatMap bytes32 = nonce := by
  obtain ⟨count, image⟩ := le32Groups_whole (n := 2) h
  obtain ⟨n0, n1, e⟩ := List.length_eq_two.1 count
  exact ⟨n0, n1, e, e ▸ image⟩

theorem nonceWords_three {nonce : List Byte} (h : nonce.length = 12) :
    ∃ n0 n1 n2, le32Groups nonce = [n0, n1, n2] ∧ [n0, n1, n2].flatMap bytes32 = nonce := by
  obtain ⟨count, image⟩ := le32Groups_whole (n := 3) h
  obtain ⟨n0, n1, n2, e⟩ := List.length_eq_three.1 count
  exact ⟨n0, n1, n2, e, e ▸ image⟩

theorem setupOrigOf_some {keybits c : Nat} {key nonce : List Byte} {k : KeyWords} {n0 n1 : Word}
    (fits : keyLengthFits keybits key = true) (hc : c < 2 ^ 64) (hk : keyWordsOf key = some k)
    (hn : le32Groups nonce = [n0, n1]) (length : nonce.length = 8) :
    setupOrigOf keybits key nonce (some c) =
      some (.setupOrig keybits k (BitVec.ofNat 32 (c % 2 ^ 32)) (BitVec.ofNat 32 (c / 2 ^ 32)) n0 n1) := by
  simp only [setupOrigOf, Option.getD_some, fits, decide_eq_true hc, Bool.and_self, if_true, hk, hn, length]

theorem setupRfcOf_some {c : Nat} {key nonce : List Byte} {k : KeyWords} {n0 n1 n2 : Word}
    (fits : key.length = 32) (hc : c < 2 ^ 32) (hk : keyWordsOf key = some k)
    (hn : le32Groups nonce = [n0, n1, n2]) (length : nonce.length = 12) :
    setupRfcOf key nonce (some c) = some (.setupRfc k (BitVec.ofNat 32 c) n0 n1 n2) := by
  simp only [setupRfcOf, Option.getD_some, fits, decide_eq_true hc, beq_self_eq_true, Bool.and_self, if_true, hk, hn,
    length]

/-- The image of words 12 to 15 under ORIGINAL: the counter, then the nonce (R16). -/
theorem counterNonce_original {nonce : List Byte} {n0 n1 : Word} (c : Nat)
    (image : [n0, n1].flatMap bytes32 = nonce) :
    [BitVec.ofNat 32 (c % 2 ^ 32), BitVec.ofNat 32 (c / 2 ^ 32), n0, n1].flatMap bytes32 =
      littleEndian 8 c ++ nonce := by
  rw [List.flatMap_cons, List.flatMap_cons, image, ← List.append_assoc, bytes32_counter]

/-- The image of words 12 to 15 under RFC7539: the counter, then the nonce (R17). -/
theorem counterNonce_rfc {nonce : List Byte} {n0 n1 n2 : Word} (c : Nat)
    (image : [n0, n1, n2].flatMap bytes32 = nonce) :
    [BitVec.ofNat 32 c, n0, n1, n2].flatMap bytes32 = littleEndian 4 c ++ nonce := by
  rw [List.flatMap_cons, image, bytes32_ofNat]

/-- Settles O23: the words of each operand serialise to its bytes, and the image is theirs in layout order. -/
theorem setupFromBytesGivesTheMemoryImage : Obligations.SetupFromBytesGivesTheMemoryImage := by
  intro key nonce c s
  refine ⟨fun hkey hnonce hc => ?_, fun hkey hnonce hc => ?_, fun hkey hnonce hc => ?_⟩
  · obtain ⟨k, hk, keyImage⟩ := keyWordsOf_length_32 hkey
    obtain ⟨n0, n1, hn, nonceImage⟩ := nonceWords_two hnonce
    refine ⟨_, _, setupOrigOf_some (by simp [keyLengthFits, hkey]) hc hk hn hnonce, rfl, ?_⟩
    rw [State.populate_words, originalWords, if_pos rfl, serialise_layout, tag32_bytes, keyImage,
      counterNonce_original c nonceImage, ← List.append_assoc, littleEndian]
  · obtain ⟨k, hk, keyImage⟩ := keyWordsOf_length_16 hkey
    obtain ⟨n0, n1, hn, nonceImage⟩ := nonceWords_two hnonce
    refine ⟨_, _, setupOrigOf_some (by simp [keyLengthFits, hkey]) hc hk hn hnonce, rfl, ?_⟩
    rw [State.populate_words, originalWords, if_neg (by decide), serialise_layout, tag16_bytes, keyImage,
      counterNonce_original c nonceImage, ← List.append_assoc, ← List.append_assoc, littleEndian]
  · obtain ⟨k, hk, keyImage⟩ := keyWordsOf_length_32 hkey
    obtain ⟨n0, n1, n2, hn, nonceImage⟩ := nonceWords_three hnonce
    refine ⟨_, _, setupRfcOf_some hkey hc hk hn hnonce, rfl, ?_⟩
    rw [State.populate_words, serialise_layout, tag32_bytes, keyImage, counterNonce_rfc c nonceImage,
      ← List.append_assoc, littleEndian]

end Sys2Proof.Machine
end

section
/-! PROOFS of 20_memory: what attaching a window does (R33), and which bytes of IN a generation command reads (R34). -/

namespace Sys2Proof.Machine

/-! Attached windows (R33). -/

/-- Settles O16: the new window reads as its bytes, and no other field is named in the act. -/
theorem attachedWindowHoldsItsBytes : Obligations.AttachedWindowHoldsItsBytes :=
  fun s bytes rest =>
    ⟨fun hp => ⟨_, step_cons s (.attachIn bytes) rest hp, Memory.read_ofBytes bytes, rfl⟩,
      fun hp => ⟨_, step_cons s (.attachOut bytes) rest hp, Memory.read_ofBytes bytes, rfl⟩⟩

/-! Another input window in the place of IN. -/

/-- The state with another input window. -/
def State.withInput (s : State) (m : Memory) : State := { s with inWin := m }

@[simp] theorem State.withInput_inWin (s : State) (m : Memory) : (s.withInput m).inWin = m := rfl
@[simp] theorem State.withInput_words (s : State) (m : Memory) : (s.withInput m).words = s.words := rfl
@[simp] theorem State.withInput_conv (s : State) (m : Memory) : (s.withInput m).conv = s.conv := rfl
@[simp] theorem State.withInput_valid (s : State) (m : Memory) : (s.withInput m).valid = s.valid := rfl
@[simp] theorem State.withInput_cfg (s : State) (m : Memory) : (s.withInput m).cfg = s.cfg := rfl
@[simp] theorem outRoom_withInput (s : State) (m : Memory) (n : Nat) : outRoom (s.withInput m) n = outRoom s n := rfl

/-- Two input windows a command may not tell apart: in XOR mode they agree from offset a on and below b, and with X = 0
they are any two (R34). -/
def AgreeIn (x : Bool) (a b : Nat) (m n : Memory) : Prop :=
  x = true → ∀ off, a ≤ off → off < b → m.read off = n.read off

theorem AgreeIn.mono {x : Bool} {a b c d : Nat} {m n : Memory} (h : AgreeIn x a b m n) (hac : a ≤ c) (hdb : d ≤ b) :
    AgreeIn x c d m n :=
  fun hx off hc hd => h hx off (Nat.le_trans hac hc) (Nat.lt_of_lt_of_le hd hdb)

theorem Memory.readBytes_congr {m n : Memory} {off len : Nat}
    (h : ∀ a, off ≤ a → a < off + len → m.read a = n.read a) : m.readBytes off len = n.readBytes off len := by
  induction len generalizing off with
  | zero => rfl
  | succ len ih =>
    have first : m.read off = n.read off := h off (by omega) (by omega)
    have others : m.readBytes (off + 1) len = n.readBytes (off + 1) len :=
      ih fun a h1 h2 => h a (by omega) (by omega)
    simp only [Memory.readBytes, first, others]

theorem storedBytes_congr {x : Bool} {off : Nat} {ks : List Byte} {m n : Memory} (h : AgreeIn x off (off + 64) m n) :
    storedBytes x off ks m = storedBytes x off ks n := by
  cases x with
  | false => rfl
  | true => simp only [storedBytes, Memory.readBytes_congr (h rfl)]

/-! Each part of a generation command answers the same over either window, but for the window itself. -/

theorem storeBlock_withInput {x : Bool} {off : Nat} {ks : List Byte} {s : State} {m : Memory}
    (h : AgreeIn x off (off + 64) m s.inWin) :
    storeBlock x off ks (s.withInput m) = (storeBlock x off ks s).map (·.withInput m) := by
  rw [storeBlock_eq, storeBlock_eq, State.withInput_inWin, storedBytes_congr h, Option.map_map]
  rfl

theorem scalarBlock_withInput {x : Bool} {rounds off : Nat} {s : State} {m : Memory}
    (h : AgreeIn x off (off + 64) m s.inWin) :
    scalarBlock x rounds off (s.withInput m) = (scalarBlock x rounds off s).map (·.withInput m) := by
  simp only [scalarBlock, State.withInput_words, storeBlock_withInput h]
  cases storeBlock x off (keystream s.words rounds) s <;> rfl

theorem storeBlocks_withInput {x : Bool} {blocks : List (List Byte)} {off : Nat} {s : State} {m : Memory}
    (h : AgreeIn x off (off + 64 * blocks.length) m s.inWin) :
    storeBlocks x blocks off (s.withInput m) = (storeBlocks x blocks off s).map (·.withInput m) := by
  induction blocks generalizing off s with
  | nil => rfl
  | cons ks rest ih =>
    rw [List.length_cons] at h
    have first : AgreeIn x off (off + 64) m s.inWin := h.mono (Nat.le_refl off) (by omega)
    have others : AgreeIn x (off + 64) (off + 64 + 64 * rest.length) m s.inWin := h.mono (by omega) (by omega)
    simp only [storeBlocks, storeBlock_withInput first]
    cases hu : storeBlock x off ks s with
    | none => rfl
    | some u => exact ih ((storeBlock_frame hu).inWin ▸ others)

theorem wideGroup_withInput {n : Nat} {x : Bool} {rounds off : Nat} {s : State} {m : Memory}
    (h : AgreeIn x off (off + 64 * n) m s.inWin) :
    wideGroup n x rounds off (s.withInput m) = (wideGroup n x rounds off s).map (·.withInput m) := by
  rw [← wideBlocks_length n s.conv s.words rounds] at h
  simp only [wideGroup, State.withInput_conv, State.withInput_words, storeBlocks_withInput h]
  cases storeBlocks x (wideBlocks n s.conv s.words rounds) off s <;> rfl

theorem runGroup_withInput {b : Backend} {x : Bool} {rounds off : Nat} {s : State} {m : Memory}
    (h : AgreeIn x off (off + 64 * b.width) m s.inWin) :
    runGroup b x rounds off (s.withInput m) = (runGroup b x rounds off s).map (·.withInput m) := by
  cases b with
  | scalar => exact scalarBlock_withInput h
  | v4 => exact wideGroup_withInput h
  | v8 => exact wideGroup_withInput h

theorem runGroup_frame {b : Backend} {x : Bool} {rounds off : Nat} {s t : State}
    (h : runGroup b x rounds off s = some t) : GenerationFrame s t := by
  cases b with
  | scalar => exact scalarBlock_frame h
  | v4 => exact wideGroup_frame h
  | v8 => exact wideGroup_frame h

theorem runSchedule_withInput {x : Bool} {rounds : Nat} {groups : List Backend} {off : Nat} {s : State} {m : Memory}
    (h : AgreeIn x off (off + 64 * (groups.map Backend.width).sum) m s.inWin) :
    runSchedule x rounds groups off (s.withInput m) = (runSchedule x rounds groups off s).map (·.withInput m) := by
  induction groups generalizing off s with
  | nil => rfl
  | cons b rest ih =>
    rw [List.map_cons, List.sum_cons] at h
    have first : AgreeIn x off (off + 64 * b.width) m s.inWin := h.mono (Nat.le_refl off) (by omega)
    have others : AgreeIn x (off + 64 * b.width) (off + 64 * b.width + 64 * (rest.map Backend.width).sum) m s.inWin :=
      h.mono (by omega) (by omega)
    simp only [runSchedule, runGroup_withInput first]
    cases hu : runGroup b x rounds off s with
    | none => rfl
    | some u => exact ih ((runGroup_frame hu).inWin ▸ others)

theorem GenKind.run_withInput {k : GenKind} {x : Bool} {rounds : Nat} {s : State} {m : Memory}
    (h : AgreeIn x 0 (64 * k.blocks) m s.inWin) :
    k.run x rounds (s.withInput m) = (k.run x rounds s).map (·.withInput m) := by
  rw [← Nat.zero_add (64 * k.blocks)] at h
  cases k with
  | one => exact scalarBlock_withInput h
  | four => exact wideGroup_withInput h
  | eight => exact wideGroup_withInput h
  | dispatch pref len =>
    rw [← schedule_widths s.cfg.hasV4 pref (GenKind.dispatch pref len).blocks] at h
    exact runSchedule_withInput h

/-- Acceptance reads no byte of IN (R121). -/
theorem accepted_withInput {cause : Option Cause} {nb : Nat} {run : Option State} {s t : State} (m : Memory)
    (h : accepted cause nb run s = .next t) :
    accepted cause nb (run.map (·.withInput m)) (s.withInput m) = .next (t.withInput m) := by
  rcases accepted_next _ _ _ _ _ h with ⟨c, rfl, rfl⟩ | ⟨rfl, room, rfl⟩
  · rfl
  · rw [Option.map_some, accepted_none_some, outRoom_withInput, if_pos room]

/-- A generation command that goes on does the same over any input window that agrees where it reads. -/
theorem exec_generation_withInput {k : GenKind} {x : Bool} {rounds : Nat} {s t : State} {m : Memory}
    (agree : AgreeIn x 0 (64 * k.blocks) m s.inWin) (h : exec (k.command x rounds) s = .next t) :
    exec (k.command x rounds) (s.withInput m) = .next (t.withInput m) := by
  rw [exec_generation] at h ⊢
  rw [GenKind.run_withInput agree]
  exact accepted_withInput m h

/-- Settles O38: with X = 0 any two windows agree where the command reads, with X = 1 those that agree below 64 NB. -/
theorem inputIsReadOnlyWhereTheCommandSays : Obligations.InputIsReadOnlyWhereTheCommandSays :=
  fun _ _ _ _ _ =>
    ⟨exec_generation_withInput fun hx => absurd hx Bool.false_ne_true,
      fun agree => exec_generation_withInput fun _ off _ below => agree off below⟩

end Sys2Proof.Machine
end

section
/-! PROOFS of 30_encoding: the fixed bits of the opcode map (R49 to R54, R58), the two round trips between commands and
packets (R56, R57, R60), illegal command words (R58), packet lengths (R55) and pseudo-instructions (R62). -/

namespace Sys2Proof

/-! Bit fields as numbers. -/

theorem extractLsb'_eq_zero_iff (w : Word) (start len : Nat) :
    w.extractLsb' start len = 0 ↔ w.toNat / 2 ^ start % 2 ^ len = 0 := by
  rw [← BitVec.toNat_inj, BitVec.extractLsb'_toNat, Nat.shiftRight_eq_div_pow, BitVec.ofNat_eq_ofNat, BitVec.toNat_zero]

/-- A word whose number is the sum of the fields is the command word built from them (R48). -/
theorem commandWord_eq_of_sum {op pref rounds keybits : Nat} {x : Bool} {cw : Word}
    (h : op * 2 ^ 28 + pref * 2 ^ 26 + x.toNat * 2 ^ 25 + rounds * 2 ^ 16 + keybits = cw.toNat) :
    commandWord op pref x rounds keybits = cw := by
  rw [commandWord, h, BitVec.ofNat_toNat, BitVec.setWidth_eq]

/-! The fixed bits of a format (R50 to R54). -/

/-- A mask compares exactly the bit ranges it is made of, for a pattern with no bit outside the mask. A range is its
lowest bit and its length. -/
theorem and_mask_eq_iff {mask pattern : Word} {ranges : List (Nat × Nat)}
    (covered : ∀ i < 32, mask.getLsbD i = true ↔ ∃ z ∈ ranges, z.1 ≤ i ∧ i < z.1 + z.2)
    (within : pattern &&& mask = pattern) (cw : Word) :
    cw &&& mask = pattern ↔ ∀ z ∈ ranges, cw.extractLsb' z.1 z.2 = pattern.extractLsb' z.1 z.2 := by
  constructor
  · rintro rfl z hz
    apply BitVec.eq_of_getLsbD_eq
    intro i hi
    by_cases high : z.1 + i < 32
    · have kept := (covered (z.1 + i) high).2 ⟨z, hz, by omega, by omega⟩
      simp [BitVec.getLsbD_extractLsb', kept]
    · simp [BitVec.getLsbD_extractLsb', BitVec.getLsbD_of_ge _ _ (Nat.le_of_not_lt high)]
  · intro h
    apply BitVec.eq_of_getLsbD_eq
    intro i hi
    by_cases kept : mask.getLsbD i = true
    · obtain ⟨z, hz, low, high⟩ := (covered i hi).1 kept
      have bit := congrArg (fun v => v.getLsbD (i - z.1)) (h z hz)
      simp only [BitVec.getLsbD_extractLsb', show i - z.1 < z.2 by omega, Nat.add_sub_cancel' low, decide_true,
        Bool.true_and] at bit
      rw [BitVec.getLsbD_and, kept, Bool.and_true, bit]
    · rw [← within, BitVec.getLsbD_and, BitVec.getLsbD_and, Bool.eq_false_of_not_eq_true kept, Bool.and_false,
        Bool.and_false]

/-- The bits below OP that the format of an OP lists as zero (R50 to R54), as ranges: lowest bit and length. -/
def zeroBits : Nat → List (Nat × Nat)
  | 1 => [(10, 18)]
  | 2 | 7 => [(0, 28)]
  | 3 | 4 | 5 => [(26, 2), (24, 1), (0, 16)]
  | 6 => [(24, 1), (0, 16)]
  | _ => []

/-- Every bit that the format of an OP lists as zero is 0. -/
def ZeroBitsClear (op : Nat) (cw : Word) : Prop := ∀ z ∈ zeroBits op, cw.toNat / 2 ^ z.1 % 2 ^ z.2 = 0

/-- Format S: cw[27:10] is 0 (R50). -/
theorem zeroBitsClear_setupOrig_iff (cw : Word) : ZeroBitsClear 1 cw ↔ cw.toNat / 2 ^ 10 % 2 ^ 18 = 0 := by
  simp [ZeroBitsClear, zeroBits]

/-- Formats R and Z: the word is OP alone (R51, R54). -/
theorem zeroBitsClear_fixed_iff {op : Nat} (format : op = 2 ∨ op = 7) (cw : Word) :
    ZeroBitsClear op cw ↔ cw.toNat % 2 ^ 28 = 0 := by
  rcases format with rfl | rfl <;> simp [ZeroBitsClear, zeroBits]

/-- Format G: PREF, cw[24] and cw[15:0] are 0 (R52). -/
theorem zeroBitsClear_gen_iff {op : Nat} (format : op = 3 ∨ op = 4 ∨ op = 5) (cw : Word) :
    ZeroBitsClear op cw ↔
      cw.toNat / 2 ^ 26 % 2 ^ 2 = 0 ∧ cw.toNat / 2 ^ 24 % 2 ^ 1 = 0 ∧ cw.toNat % 2 ^ 16 = 0 := by
  rcases format with rfl | rfl | rfl <;> simp [ZeroBitsClear, zeroBits]

/-- Format D: cw[24] and cw[15:0] are 0 (R53). -/
theorem zeroBitsClear_dispatch_iff (cw : Word) :
    ZeroBitsClear 6 cw ↔ cw.toNat / 2 ^ 24 % 2 ^ 1 = 0 ∧ cw.toNat % 2 ^ 16 = 0 := by
  simp [ZeroBitsClear, zeroBits]

/-- The masks of the opcode map are OP and the zero bits; the patterns are OP alone. -/
theorem opcodeMap_masks : ∀ r ∈ opcodeMap,
    (∀ i < 32, r.mask.getLsbD i = true ↔ ∃ z ∈ (28, 4) :: zeroBits r.op, z.1 ≤ i ∧ i < z.1 + z.2) ∧
    r.pattern &&& r.mask = r.pattern ∧ opField r.pattern = r.op ∧
    ∀ z ∈ zeroBits r.op, r.pattern.extractLsb' z.1 z.2 = 0 := by decide

/-- A word fits a row of the opcode map when it has the row's OP and the format's zero bits are 0 (R58). -/
theorem fits_iff {r : FormatRow} (hr : r ∈ opcodeMap) (cw : Word) :
    r.fits cw = true ↔ opField cw = r.op ∧ ZeroBitsClear r.op cw := by
  obtain ⟨covered, within, op, zero⟩ := opcodeMap_masks r hr
  rw [FormatRow.fits, beq_iff_eq, and_mask_eq_iff covered within, List.forall_mem_cons, ← op]
  refine and_congr BitVec.toNat_inj.symm (forall₂_congr fun z hz => ?_)
  rw [op] at hz
  rw [zero z hz, extractLsb'_eq_zero_iff]

theorem opcodeMap_op_injective : ∀ r ∈ opcodeMap, ∀ r' ∈ opcodeMap, r.op = r'.op → r = r' := by decide

/-- Settles O5: a word that fits a row has the row's OP, and no two rows have the same one. -/
theorem opcodeRowsDoNotOverlap : Obligations.OpcodeRowsDoNotOverlap := by
  intro r hr r' hr' cw h h'
  obtain ⟨op, -⟩ := (fits_iff hr cw).1 h
  obtain ⟨op', -⟩ := (fits_iff hr' cw).1 h'
  exact opcodeMap_op_injective r hr r' hr' (op.symm.trans op')

/-! The row of an OP (R49). -/

/-- The OP values that name a command (R49). -/
abbrev NamedOp (op : Nat) : Prop := op ≠ 0 ∧ op < 8

theorem opcodeMap_named : ∀ r ∈ opcodeMap, NamedOp r.op := by decide

theorem rowOf_some {op : Nat} {r : FormatRow} (h : rowOf op = some r) : r ∈ opcodeMap ∧ r.op = op :=
  ⟨List.mem_of_find?_eq_some h, by simpa using List.find?_some h⟩

theorem exists_rowOf {op : Nat} (named : NamedOp op) : ∃ r, rowOf op = some r := by
  have rows : ∀ op < 8, op ≠ 0 → (rowOf op).isSome = true := by decide
  exact Option.isSome_iff_exists.1 (rows op named.2 named.1)

theorem rowOf_none {op : Nat} (h : op = 0 ∨ 8 ≤ op) : rowOf op = none := by
  rw [rowOf, List.find?_eq_none]
  intro r hr
  have := opcodeMap_named r hr
  simp only [beq_iff_eq]
  omega

/-! What decode answers (R60). -/

/-- A whole packet whose OP names a command and whose zero bits are 0 goes on to step (4) of R60. -/
theorem decode_eq_assemble {cw : Word} {operands : List Word} (named : NamedOp (opField cw))
    (len : operands.length + 1 = packetWords (opField cw)) (clear : ZeroBitsClear (opField cw) cw) :
    decode (cw :: operands) = assemble cw operands := by
  obtain ⟨row, hr⟩ := exists_rowOf named
  obtain ⟨mem, op⟩ := rowOf_some hr
  exact decode_fit cw operands row len hr ((fits_iff mem cw).2 ⟨op.symm, op ▸ clear⟩)

/-- A packet that decodes has passed steps (1) to (3) of R60, and step (4) gave the command. -/
theorem decode_command {cw : Word} {operands : List Word} {i : Instr} (h : decode (cw :: operands) = .command i) :
    NamedOp (opField cw) ∧ operands.length + 1 = packetWords (opField cw) ∧ ZeroBitsClear (opField cw) cw ∧
      assemble cw operands = .command i := by
  by_cases len : operands.length + 1 = packetWords (opField cw)
  · cases hr : rowOf (opField cw) with
    | none => rw [decode_no_row cw operands len hr] at h; cases h
    | some row =>
      obtain ⟨mem, op⟩ := rowOf_some hr
      cases hf : row.fits cw with
      | false => rw [decode_misfit cw operands row len hr hf] at h; cases h
      | true =>
        obtain ⟨-, clear⟩ := (fits_iff mem cw).1 hf
        exact ⟨op ▸ opcodeMap_named row mem, len, op ▸ clear, decode_fit cw operands row len hr hf ▸ h⟩
  · rw [decode_length_ne cw operands len] at h; cases h

/-! What step (4) of R60 answers. -/

/-- A PREF value names the backend whose PREF it is, or it is 3, which is reserved (R57, R58). -/
theorem prefField_cases (cw : Word) :
    (∃ pref : Backend, pref.pref = prefField cw) ∨ prefField cw = 3 := by
  have range : prefField cw < 4 := by rw [prefField_toNat]; omega
  have backends : ∀ n < 3, ∃ pref ∈ [Backend.scalar, .v4, .v8], pref.pref = n := by decide
  by_cases h : prefField cw < 3
  · obtain ⟨pref, -, hp⟩ := backends _ h
    exact .inl ⟨pref, hp⟩
  · exact .inr (by omega)

/-- The operands of a whole packet and the answer of step (4), for each OP that names a command. -/
inductive Assembled (cw : Word) : List Word → Decoded → Prop
  | setupOrig (op : opField cw = 1) (key : KeyWords) (c0 c1 n0 n1 : Word) :
      Assembled cw (key.toList ++ [c0, c1, n0, n1]) (.command (.setupOrig (keybitsField cw) key c0 c1 n0 n1))
  | setupRfc (op : opField cw = 2) (key : KeyWords) (c0 n0 n1 n2 : Word) :
      Assembled cw (key.toList ++ [c0, n0, n1, n2]) (.command (.setupRfc key c0 n0 n1 n2))
  | gen1 (op : opField cw = 3) : Assembled cw [] (.command (.gen1 (xField cw) (roundsField cw)))
  | gen4 (op : opField cw = 4) : Assembled cw [] (.command (.gen4 (xField cw) (roundsField cw)))
  | gen8 (op : opField cw = 5) : Assembled cw [] (.command (.gen8 (xField cw) (roundsField cw)))
  | dispatch (op : opField cw = 6) (pref : Backend) (hp : pref.pref = prefField cw) (lenLo lenHi : Word) :
      Assembled cw [lenLo, lenHi]
        (.command (.dispatch pref (xField cw) (roundsField cw) (2 ^ 32 * lenHi.toNat + lenLo.toNat)))
  | reserved (op : opField cw = 6) (hp : prefField cw = 3) (lenLo lenHi : Word) :
      Assembled cw [lenLo, lenHi] (.rejected .reservedPreference)
  | zeroize (op : opField cw = 7) : Assembled cw [] (.command .zeroize)

/-- The twelve operand words of a setup packet (R50, R51). -/
theorem setupOperands_of_length {operands : List Word} (h : operands.length = 12) :
    ∃ (key : KeyWords) (a b c d : Word), operands = key.toList ++ [a, b, c, d] := by
  match operands, h with
  | [k0, k1, k2, k3, k4, k5, k6, k7, a, b, c, d], _ => exact ⟨⟨k0, k1, k2, k3, k4, k5, k6, k7⟩, a, b, c, d, rfl⟩

/-- Step (4) of R60 on a whole packet whose OP names a command. -/
theorem assembled {cw : Word} {operands : List Word} (named : NamedOp (opField cw))
    (len : operands.length + 1 = packetWords (opField cw)) : Assembled cw operands (assemble cw operands) := by
  obtain op | op | op | op | op | op | op : opField cw = 1 ∨ opField cw = 2 ∨ opField cw = 3 ∨ opField cw = 4 ∨
    opField cw = 5 ∨ opField cw = 6 ∨ opField cw = 7 := by omega
  all_goals rw [op, packetWords] at len
  · obtain ⟨key, c0, c1, n0, n1, rfl⟩ := setupOperands_of_length (Nat.succ.inj len)
    exact assemble_one cw op key c0 c1 n0 n1 ▸ .setupOrig op key c0 c1 n0 n1
  · obtain ⟨key, c0, n0, n1, n2, rfl⟩ := setupOperands_of_length (Nat.succ.inj len)
    exact assemble_two cw op key c0 n0 n1 n2 ▸ .setupRfc op key c0 n0 n1 n2
  · obtain rfl := List.length_eq_zero_iff.1 (Nat.succ.inj len)
    exact assemble_three cw op ▸ .gen1 op
  · obtain rfl := List.length_eq_zero_iff.1 (Nat.succ.inj len)
    exact assemble_four cw op ▸ .gen4 op
  · obtain rfl := List.length_eq_zero_iff.1 (Nat.succ.inj len)
    exact assemble_five cw op ▸ .gen8 op
  · obtain ⟨lenLo, lenHi, rfl⟩ := List.length_eq_two.1 (Nat.succ.inj len)
    rw [assemble_six cw lenLo lenHi op]
    rcases prefField_cases cw with ⟨pref, hp⟩ | hp
    · rw [← hp, pref.backendOf_pref]
      exact .dispatch op pref hp lenLo lenHi
    · rw [hp]
      exact .reserved op hp lenLo lenHi
  · obtain rfl := List.length_eq_zero_iff.1 (Nat.succ.inj len)
    exact assemble_seven cw op ▸ .zeroize op

/-- OP 1 is SETUP.ORIG, with KEYBITS from the command word. -/
theorem Assembled.setup_of_op {cw : Word} {operands : List Word} {i : Instr} (h : Assembled cw operands (.command i))
    (op : opField cw = 1) : ∃ key c0 c1 n0 n1, i = .setupOrig (keybitsField cw) key c0 c1 n0 n1 := by
  cases h with
  | setupOrig _ key c0 c1 n0 n1 => exact ⟨key, c0, c1, n0, n1, rfl⟩
  | _ => omega

/-- OP 3 to 6 is a generation command, with X and ROUNDS from the command word. -/
theorem Assembled.generation_of_op {cw : Word} {operands : List Word} {i : Instr}
    (h : Assembled cw operands (.command i)) (low : 3 ≤ opField cw) (high : opField cw ≤ 6) :
    ∃ k : Machine.GenKind, i = k.command (xField cw) (roundsField cw) := by
  cases h with
  | gen1 => exact ⟨.one, rfl⟩
  | gen4 => exact ⟨.four, rfl⟩
  | gen8 => exact ⟨.eight, rfl⟩
  | dispatch _ pref _ lenLo lenHi => exact ⟨.dispatch pref _, rfl⟩
  | _ => omega

/-! The packet of a command decodes to it (R56, R57). -/

/-- A built command word whose operands are those of its format passes steps (1) to (3) of R60. -/
theorem decode_commandWord {op pref rounds keybits : Nat} {x : Bool} {operands : List Word}
    (named : NamedOp op) (hp : pref < 4) (hr : rounds < 256) (hk : keybits < 1024)
    (len : operands.length + 1 = packetWords op) (clear : ZeroBitsClear op (commandWord op pref x rounds keybits)) :
    decode (commandWord op pref x rounds keybits :: operands) =
      assemble (commandWord op pref x rounds keybits) operands := by
  have hop := (commandWord_fields op pref x rounds keybits (by omega) hp hr hk).1
  exact decode_eq_assemble (hop.symm ▸ named) (hop.symm ▸ len) (hop.symm ▸ clear)

/-- Formats R and Z: a word of OP alone. -/
theorem decode_fixedWord {op : Nat} {operands : List Word} (format : op = 2 ∨ op = 7)
    (len : operands.length + 1 = packetWords op) :
    decode (commandWord op 0 false 0 0 :: operands) = assemble (commandWord op 0 false 0 0) operands := by
  have sum := commandWord_toNat op 0 false 0 0 (by omega) (by omega) (by omega) (by omega)
  refine decode_commandWord (by omega) (by omega) (by omega) (by omega) len ((zeroBitsClear_fixed_iff format _).2 ?_)
  rw [Bool.toNat_false] at sum
  omega

/-- Format G: a word of OP, X and ROUNDS, from which step (4) of R60 makes the command. -/
theorem decode_genWord {op rounds : Nat} {x : Bool} {make : Bool → Nat → Instr} (format : op = 3 ∨ op = 4 ∨ op = 5)
    (hr : rounds < 256)
    (makes : ∀ cw, opField cw = op → assemble cw [] = .command (make (xField cw) (roundsField cw))) :
    decode [commandWord op 0 x rounds 0] = .command (make x rounds) := by
  have hx := x.toNat_lt
  have sum := commandWord_toNat op 0 x rounds 0 (by omega) (by omega) hr (by omega)
  obtain ⟨hop, -, hxf, hrounds, -⟩ := commandWord_fields op 0 x rounds 0 (by omega) (by omega) hr (by omega)
  have clear : ZeroBitsClear op (commandWord op 0 x rounds 0) := by
    rw [zeroBitsClear_gen_iff format, sum]
    omega
  have len : ([] : List Word).length + 1 = packetWords op := by rcases format with rfl | rfl | rfl <;> rfl
  rw [decode_commandWord (by omega) (by omega) hr (by omega) len clear, makes _ hop, hxf, hrounds]

/-- LEN from its two operand words (R53). -/
theorem len_of_words {len : Nat} (h : len < 2 ^ 64) :
    2 ^ 32 * (BitVec.ofNat 32 (len / 2 ^ 32)).toNat + (BitVec.ofNat 32 (len % 2 ^ 32)).toNat = len := by
  rw [BitVec.toNat_ofNat, BitVec.toNat_ofNat]
  omega

theorem decode_encode_setupOrig {keybits : Nat} (hk : keybits < 1024) (key : KeyWords) (c0 c1 n0 n1 : Word) :
    decode (encode (.setupOrig keybits key c0 c1 n0 n1)) = .command (.setupOrig keybits key c0 c1 n0 n1) := by
  obtain ⟨hop, -, -, -, hkeybits⟩ := commandWord_fields 1 0 false 0 keybits (by omega) (by omega) (by omega) hk
  have sum := commandWord_toNat 1 0 false 0 keybits (by omega) (by omega) (by omega) hk
  have clear : ZeroBitsClear 1 (commandWord 1 0 false 0 keybits) := by
    rw [zeroBitsClear_setupOrig_iff, sum, Bool.toNat_false]
    omega
  rw [encode, decode_commandWord (by omega) (by omega) (by omega) hk rfl clear]
  exact (assemble_one _ hop key c0 c1 n0 n1).trans (by rw [hkeybits])

theorem decode_encode_dispatch (pref : Backend) (x : Bool) {rounds len : Nat} (hr : rounds < 256) (hl : len < 2 ^ 64) :
    decode (encode (.dispatch pref x rounds len)) = .command (.dispatch pref x rounds len) := by
  have hp := pref.pref_lt
  have hx := x.toNat_lt
  obtain ⟨hop, hpref, hxf, hrounds, -⟩ := commandWord_fields 6 pref.pref x rounds 0 (by omega) (by omega) hr (by omega)
  have sum := commandWord_toNat 6 pref.pref x rounds 0 (by omega) (by omega) hr (by omega)
  have clear : ZeroBitsClear 6 (commandWord 6 pref.pref x rounds 0) := by
    rw [zeroBitsClear_dispatch_iff, sum]
    omega
  rw [encode, decode_commandWord (by omega) (by omega) hr (by omega) rfl clear, assemble_six _ _ _ hop, hpref,
    pref.backendOf_pref, hxf, hrounds, len_of_words hl]

/-- Settles O1: format by format, the built word passes the checks and step (4) reads back its fields. -/
theorem decodeOfEncodeIsTheCommand : Obligations.DecodeOfEncodeIsTheCommand := by
  intro i hw
  cases i with
  | setupOrig keybits key c0 c1 n0 n1 => exact decode_encode_setupOrig (of_decide_eq_true hw) key c0 c1 n0 n1
  | setupRfc key c0 n0 n1 n2 => exact (decode_fixedWord (.inl rfl) rfl).trans (assemble_two _ rfl key c0 n0 n1 n2)
  | gen1 x rounds => exact decode_genWord (.inl rfl) (of_decide_eq_true hw) assemble_three
  | gen4 x rounds => exact decode_genWord (.inr (.inl rfl)) (of_decide_eq_true hw) assemble_four
  | gen8 x rounds => exact decode_genWord (.inr (.inr rfl)) (of_decide_eq_true hw) assemble_five
  | dispatch pref x rounds len =>
    obtain ⟨hr, hl⟩ := Bool.and_eq_true_iff.1 hw
    exact decode_encode_dispatch pref x (of_decide_eq_true hr) (of_decide_eq_true hl)
  | zeroize => exact (decode_fixedWord (.inr rfl) rfl).trans (assemble_seven _ rfl)

/-! A packet that decodes is the packet of its command (R58, R60). -/

theorem keybitsField_lt (cw : Word) : keybitsField cw < 1024 := by rw [keybitsField_toNat]; omega
theorem roundsField_lt (cw : Word) : roundsField cw < 256 := by rw [roundsField_toNat]; omega

/-- The word of a format-R or format-Z command is the one its encoder builds. -/
theorem commandWord_fixed {op : Nat} {cw : Word} (format : op = 2 ∨ op = 7) (hop : opField cw = op)
    (clear : ZeroBitsClear op cw) : commandWord op 0 false 0 0 = cw := by
  apply commandWord_eq_of_sum
  rw [opField_toNat] at hop
  rw [zeroBitsClear_fixed_iff format] at clear
  rw [Bool.toNat_false]
  omega

theorem commandWord_setupOrig {cw : Word} (hop : opField cw = 1) (clear : ZeroBitsClear 1 cw) :
    commandWord 1 0 false 0 (keybitsField cw) = cw := by
  apply commandWord_eq_of_sum
  rw [opField_toNat] at hop
  rw [zeroBitsClear_setupOrig_iff] at clear
  rw [Bool.toNat_false, keybitsField_toNat]
  omega

theorem commandWord_gen {op : Nat} {cw : Word} (format : op = 3 ∨ op = 4 ∨ op = 5) (hop : opField cw = op)
    (clear : ZeroBitsClear op cw) : commandWord op 0 (xField cw) (roundsField cw) 0 = cw := by
  apply commandWord_eq_of_sum
  rw [opField_toNat] at hop
  rw [zeroBitsClear_gen_iff format] at clear
  rw [xField_toNat, roundsField_toNat]
  omega

theorem commandWord_dispatch {cw : Word} (hop : opField cw = 6) (clear : ZeroBitsClear 6 cw) :
    commandWord 6 (prefField cw) (xField cw) (roundsField cw) 0 = cw := by
  apply commandWord_eq_of_sum
  rw [opField_toNat] at hop
  rw [zeroBitsClear_dispatch_iff] at clear
  rw [prefField_toNat, xField_toNat, roundsField_toNat]
  omega

/-- The two operand words of LEN, from LEN (R53). -/
theorem words_of_len (lenLo lenHi : Word) :
    2 ^ 32 * lenHi.toNat + lenLo.toNat < 2 ^ 64 ∧
    BitVec.ofNat 32 ((2 ^ 32 * lenHi.toNat + lenLo.toNat) % 2 ^ 32) = lenLo ∧
    BitVec.ofNat 32 ((2 ^ 32 * lenHi.toNat + lenLo.toNat) / 2 ^ 32) = lenHi := by
  refine ⟨by omega, BitVec.eq_of_toNat_eq ?_, BitVec.eq_of_toNat_eq ?_⟩ <;> rw [BitVec.toNat_ofNat] <;> omega

/-- Step (4) of R60 loses nothing: the command is well-formed and the encoder rebuilds the packet. -/
theorem Assembled.wellFormed_encode {cw : Word} {operands : List Word} {i : Instr}
    (h : Assembled cw operands (.command i)) (clear : ZeroBitsClear (opField cw) cw) :
    WellFormed i = true ∧ encode i = cw :: operands := by
  have hr := decide_eq_true (roundsField_lt cw)
  cases h with
  | setupOrig op key c0 c1 n0 n1 =>
    exact ⟨decide_eq_true (keybitsField_lt cw), congrArg (· :: _) (commandWord_setupOrig op (op ▸ clear))⟩
  | setupRfc op key c0 n0 n1 n2 => exact ⟨rfl, congrArg (· :: _) (commandWord_fixed (.inl rfl) op (op ▸ clear))⟩
  | gen1 op => exact ⟨hr, congrArg (· :: _) (commandWord_gen (.inl rfl) op (op ▸ clear))⟩
  | gen4 op => exact ⟨hr, congrArg (· :: _) (commandWord_gen (.inr (.inl rfl)) op (op ▸ clear))⟩
  | gen8 op => exact ⟨hr, congrArg (· :: _) (commandWord_gen (.inr (.inr rfl)) op (op ▸ clear))⟩
  | dispatch op pref hp lenLo lenHi =>
    obtain ⟨fits, low, high⟩ := words_of_len lenLo lenHi
    refine ⟨Bool.and_eq_true_iff.2 ⟨hr, decide_eq_true fits⟩, ?_⟩
    rw [encode, low, high, hp, commandWord_dispatch op (op ▸ clear)]
  | zeroize op => exact ⟨rfl, congrArg (· :: _) (commandWord_fixed (.inr rfl) op (op ▸ clear))⟩

/-- Settles O2: the checks leave no free bit but the operands', and step (4) keeps those. -/
theorem encodeOfDecodeIsThePacket : Obligations.EncodeOfDecodeIsThePacket := by
  intro packet i h
  cases packet with
  | nil => cases h
  | cons cw operands =>
    obtain ⟨named, len, clear, command⟩ := decode_command h
    exact Assembled.wellFormed_encode (command ▸ assembled named len) clear

end Sys2Proof

namespace Sys2Proof.Machine

/-! Illegal command words (R58). -/

theorem illegalWord_iff (cw : Word) :
    IllegalWord cw ↔
      ¬ NamedOp (opField cw) ∨ ¬ ZeroBitsClear (opField cw) cw ∨ (opField cw = 6 ∧ prefField cw = 3) := by
  have bit24 : cw.getLsbD 24 = true ↔ cw.toNat / 2 ^ 24 % 2 ^ 1 ≠ 0 := by
    rw [BitVec.getLsbD, Nat.testBit_eq_decide_div_mod_eq, decide_eq_true_iff]
    omega
  have reserved : cw.extractLsb' 26 2 = 3 ↔ prefField cw = 3 := BitVec.toNat_inj.symm
  unfold IllegalWord
  rw [show (cw.extractLsb' 28 4).toNat = opField cw from rfl]
  simp only [ne_eq, extractLsb'_eq_zero_iff, bit24, reserved]
  by_cases named : NamedOp (opField cw)
  · obtain op | op | op | op : opField cw = 1 ∨ (opField cw = 2 ∨ opField cw = 7) ∨
      (opField cw = 3 ∨ opField cw = 4 ∨ opField cw = 5) ∨ opField cw = 6 := by omega
    · rw [op, zeroBitsClear_setupOrig_iff]; omega
    · rw [zeroBitsClear_fixed_iff op]; omega
    · rw [zeroBitsClear_gen_iff op]; omega
    · rw [op, zeroBitsClear_dispatch_iff]; omega
  · exact iff_of_true (by omega) (.inl named)

/-- A whole packet with an illegal command word is rejected as one (R58). -/
theorem decode_illegal {cw : Word} {operands : List Word} (illegal : IllegalWord cw)
    (len : operands.length + 1 = packetWords (opField cw)) :
    ∃ r, decode (cw :: operands) = .rejected r ∧ r.isIllegal = true := by
  by_cases named : NamedOp (opField cw)
  · by_cases clear : ZeroBitsClear (opField cw) cw
    · obtain ⟨op, pref⟩ :=
        (((illegalWord_iff cw).1 illegal).resolve_left (not_not.2 named)).resolve_left (not_not.2 clear)
      refine ⟨.reservedPreference, ?_, rfl⟩
      rw [decode_eq_assemble named len clear]
      rw [op] at len
      obtain ⟨lenLo, lenHi, rfl⟩ := List.length_eq_two.1 (Nat.succ.inj len)
      rw [assemble_six cw lenLo lenHi op, pref]
      rfl
    · obtain ⟨row, hr⟩ := exists_rowOf named
      obtain ⟨mem, op⟩ := rowOf_some hr
      have misfit : row.fits cw = false :=
        Bool.eq_false_of_not_eq_true fun fits => clear (op ▸ ((fits_iff mem cw).1 fits).2)
      exact ⟨.reservedBitSet, decode_misfit cw operands row len hr misfit, rfl⟩
  · exact ⟨.noSuchOpcode, decode_no_row cw operands len (rowOf_none (by omega)), rfl⟩

/-- A whole packet with any other command word decodes (R58). -/
theorem decode_legal {cw : Word} {operands : List Word} (legal : ¬ IllegalWord cw)
    (len : operands.length + 1 = packetWords (opField cw)) :
    ∃ i, decode (cw :: operands) = .command i ∧ Assembled cw operands (.command i) := by
  rw [illegalWord_iff, not_or, not_or, not_not, not_not] at legal
  obtain ⟨named, clear, preference⟩ := legal
  have answer := assembled named len
  rw [decode_eq_assemble named len clear]
  cases h : assemble cw operands with
  | command i => exact ⟨i, rfl, h ▸ answer⟩
  | rejected r =>
    rw [h] at answer
    cases answer with
    | reserved op hp => exact absurd ⟨op, hp⟩ preference

/-! A presented packet (R121). -/

/-- A packet that does not decode, at an engine with no fault: the fault entry if the command word is illegal. -/
theorem step_rejected {s : State} {packet : List Word} {rest : List HostAct} {r : Reject}
    (hp : s.pending = .packet packet :: rest) (hf : s.fault = false) (hd : decode packet = .rejected r) :
    step s = if r.isIllegal then .next (raiseFault .illegalCommand { s with pending := rest })
      else .refused .notAPacket := by
  rw [step_cons s _ rest hp]
  simp [performAct, presentPacket, hf, hd]

theorem exec_setupOrig_invalidKeybits {keybits : Nat} (h : keybits ≠ 128 ∧ keybits ≠ 256) (key : KeyWords)
    (c0 c1 n0 n1 : Word) (s : State) :
    exec (.setupOrig keybits key c0 c1 n0 n1) s = .next (raiseFault .invalidKeybits s) :=
  if_pos h

theorem exec_generation_invalidRounds (k : GenKind) (x : Bool) {rounds : Nat} {s : State}
    (h : roundsSupported s.cfg rounds = false) :
    exec (k.command x rounds) s = .next (raiseFault .invalidRounds s) := by
  rw [exec_generation, h]
  rfl

/-- Settles O3: what the command word is decides what decode answers, and the fault entry does the rest. -/
theorem illegalWordFaultsAndLegalWordDecodes : Obligations.IllegalWordFaultsAndLegalWordDecodes := by
  intro cw operands s rest hp hf len
  refine ⟨fun illegal => ?_, fun legal => ?_, fun legal op not128 not256 => ?_, fun legal low high unsupported => ?_⟩
  · obtain ⟨r, hd, hr⟩ := decode_illegal illegal len
    rw [step_rejected hp hf hd, if_pos hr]
    rfl
  · obtain ⟨i, hd, -⟩ := decode_legal legal len
    exact ⟨i, hd⟩
  · obtain ⟨i, hd, shape⟩ := decode_legal legal len
    obtain ⟨key, c0, c1, n0, n1, rfl⟩ := shape.setup_of_op (congrArg BitVec.toNat op)
    have invalid : keybitsField cw ≠ 128 ∧ keybitsField cw ≠ 256 :=
      ⟨fun h => not128 (BitVec.eq_of_toNat_eq h), fun h => not256 (BitVec.eq_of_toNat_eq h)⟩
    exact (stepRunsTheDecodedCommand s _ rest _ hp hf hd).trans (exec_setupOrig_invalidKeybits invalid ..)
  · obtain ⟨i, hd, shape⟩ := decode_legal legal len
    obtain ⟨k, rfl⟩ := shape.generation_of_op low high
    exact (stepRunsTheDecodedCommand s _ rest _ hp hf hd).trans (exec_generation_invalidRounds k _ unsupported)

/-- Settles O13: decode rejects such words for their number, before it looks at OP's row. -/
theorem wordsThatAreNoPacketAreRefused : Obligations.WordsThatAreNoPacketAreRefused := by
  intro s packet rest hp hf notPacket
  have refuse {r : Reject} (hd : decode packet = .rejected r) (hr : r.isIllegal = false) :
      step s = .refused .notAPacket := by
    rw [step_rejected hp hf hd, hr]
    rfl
  cases packet with
  | nil => exact refuse rfl rfl
  | cons cw operands => exact refuse (decode_length_ne cw operands (notPacket cw operands rfl)) rfl

/-! A table row's word (log entry 2). -/

theorem decode_tablePacket {nbits w : Nat} {i : Instr} (h : decodeTableWord nbits w = some i) :
    decode (tablePacket nbits w) = .command i := by
  unfold decodeTableWord at h
  split at h
  next j hd => cases h; exact hd
  next => cases h

/-- Settles O8: the word's packet is the host's oldest act, and with it taken the state is the one it was put into. -/
theorem placedWordIsTheNextCommand : Obligations.PlacedWordIsTheNextCommand := by
  intro s nbits w i hf h
  exact stepRunsTheDecodedCommand (s.withFetchWord nbits w) _ s.pending i rfl hf (decode_tablePacket h)

/-! Packet lengths (R55) and written-out packets (V9). -/

theorem opField_eq_iff (cw : Word) (n : BitVec 4) : opField cw = n.toNat ↔ cw.extractLsb' 28 4 = n := BitVec.toNat_inj

/-- Settles O4: packetWords reads OP alone, and decode's first check is the length it tells. -/
theorem commandsHaveTheLengthOpTells : Obligations.CommandsHaveTheLengthOpTells := by
  refine ⟨fun cw => ?_, fun cw operands i h => ?_⟩
  · simp only [← opField_eq_iff]
    rfl
  · obtain ⟨-, len, -⟩ := decode_command h
    exact len

/-- The packet a command encodes to decodes to it. -/
theorem decode_of_encode {packet : List Word} {i : Instr} (h : WellFormed i = true ∧ encode i = packet) :
    decode packet = .command i :=
  h.2 ▸ decodeOfEncodeIsTheCommand i h.1

/-- Settles O6: each packet is the one the encoder builds. -/
theorem writtenOutPacketsDecode : Obligations.WrittenOutPacketsDecode :=
  ⟨decode_of_encode (by decide), decode_of_encode (by decide), decode_of_encode (by decide),
    decode_of_encode (by decide), decode_of_encode (by decide), decode_of_encode (by decide),
    decode_of_encode (by decide)⟩

/-! Pseudo-instructions (R62). -/

/-- Settles O59: Asm.command has one answer for each pair, and reads no counter as 0. -/
theorem pseudoInstructionsAreOneCommand : Obligations.PseudoInstructionsAreOneCommand :=
  ⟨fun _ => ⟨rfl, rfl, rfl⟩, fun _ _ _ => rfl, fun _ _ _ _ => ⟨rfl, rfl⟩, fun _ _ _ => ⟨rfl, rfl⟩⟩

end Sys2Proof.Machine
end

section
/-! PROOFS of 40_setup: what SETUP.ORIG (R63), SETUP.RFC (R64) and ZEROIZE (R65) make of a state. -/

namespace Sys2Proof.Machine

/-! The two setups (R63, R64). -/

theorem exec_setupOrig_legalKeybits {keybits : Nat} (h : keybits = 128 ∨ keybits = 256) (key : KeyWords)
    (c0 c1 n0 n1 : Word) (s : State) :
    exec (.setupOrig keybits key c0 c1 n0 n1) s =
      .next (s.populate (originalWords keybits key c0 c1 n0 n1) .original) :=
  if_neg (by omega)

theorem originalWords_256 (key : KeyWords) (c0 c1 n0 n1 : Word) :
    originalWords 256 key c0 c1 n0 n1 = layout tag32 key c0 c1 n0 n1 := if_pos rfl

theorem originalWords_128 (key : KeyWords) (c0 c1 n0 n1 : Word) :
    originalWords 128 key c0 c1 n0 n1 = layout tag16 (mirrorKey key) c0 c1 n0 n1 := if_neg (by decide)

theorem exec_setupRfc (key : KeyWords) (c0 n0 n1 n2 : Word) (s : State) :
    exec (.setupRfc key c0 n0 n1 n2) s = .next (s.populate (layout tag32 key c0 n0 n1 n2) .rfc7539) := rfl

/-- Settles O20: each legal KEYBITS populates its own layout, and every other one meets the fault entry before it. -/
theorem setupOrigPopulatesTheState : Obligations.SetupOrigPopulatesTheState := by
  intro key c0 c1 n0 n1 s
  refine ⟨?_, ?_, fun keybits not128 not256 => exec_setupOrig_invalidKeybits ⟨not128, not256⟩ ..⟩
  · rw [exec_setupOrig_legalKeybits (.inr rfl), originalWords_256]
    rfl
  · rw [exec_setupOrig_legalKeybits (.inl rfl), originalWords_128]
    rfl

/-- Settles O21: the written-out record is the populated State. -/
theorem setupRfcPopulatesTheState : Obligations.SetupRfcPopulatesTheState := exec_setupRfc

/-! ZEROIZE (R65). -/

theorem exec_zeroize (s : State) : exec .zeroize s = .next s.destroy := rfl

/-- Destroying keeps a state whose words, CONV and VALID are already those of reset. -/
theorem State.destroy_of_empty {s : State} (words : s.words = Regs.all 0) (conv : s.conv = .original)
    (valid : s.valid = false) : s.destroy = s := by
  rw [State.destroy, ← words, ← conv, ← valid]

theorem exec_generation_stateNotSet (k : GenKind) (x : Bool) {rounds : Nat} {s : State}
    (supported : roundsSupported s.cfg rounds = true) (available : k.backend.available s.cfg = true)
    (valid : s.valid = false) :
    exec (k.command x rounds) s = .next (raiseFault .stateNotSet s) := by
  rw [exec_generation, supported, available, valid]
  rfl

/-- Settles O22: ZEROIZE leaves the destroyed state, an empty State has nothing to destroy, and VALID = 0 is the one
check of R121 that a generation command after it still fails. -/
theorem zeroizeDestroysTheState : Obligations.ZeroizeDestroysTheState := by
  intro s
  refine ⟨exec_zeroize s, fun legal invalid => ?_, fun k x rounds t ht supported available => ?_⟩
  · obtain ⟨words, conv⟩ := legal.1 invalid
    rw [exec_zeroize, State.destroy_of_empty words conv invalid]
  · cases ht
    exact exec_generation_stateNotSet k x supported available (State.destroy_valid s)

end Sys2Proof.Machine
end

section
/-! PROOFS of 41_round_transform: the rotation (R70), the quarter round (R71), the rounds on columns and diagonals (R72
to R74), the permutation (R75), and the inverses (R78). -/

namespace Sys2Proof.Machine

/-! The rotation (R70). -/

/-- rotl32 is the library's rotation: the two summands have no bit in common, so that their sum is their union. -/
theorem rotl32_eq_rotateLeft (x : Word) {n : Nat} (h : n < 32) : rotl32 x n = x.rotateLeft n := by
  have kept : x.toNat * 2 ^ n % 2 ^ 32 = 2 ^ n * (x.toNat % 2 ^ (32 - n)) := by
    rw [← Nat.mul_mod_mul_left, ← pow_add, Nat.add_sub_cancel' h.le, mul_comm]
  have carried : x.toNat / 2 ^ (32 - n) < 2 ^ n := by
    rw [Nat.div_lt_iff_lt_mul (by positivity), ← pow_add, Nat.add_sub_cancel' h.le]
    exact x.isLt
  have union : x.toNat * 2 ^ n % 2 ^ 32 + x.toNat / 2 ^ (32 - n) = (x.rotateLeft n).toNat := by
    rw [BitVec.toNat_rotateLeft, Nat.mod_eq_of_lt h, Nat.shiftLeft_eq, Nat.shiftRight_eq_div_pow, kept,
      Nat.two_pow_add_eq_or_of_lt carried]
  rw [rotl32, union, BitVec.ofNat_toNat, BitVec.setWidth_eq]

theorem rotl32_getLsbD (x : Word) {n i : Nat} (hn : n < 32) (hi : i < 32) :
    (rotl32 x n).getLsbD i = x.getLsbD ((i + 32 - n) % 32) := by
  rw [rotl32_eq_rotateLeft x hn, BitVec.getLsbD_rotateLeft, Nat.mod_eq_of_lt hn]
  by_cases carried : i < n
  · have position : 32 - n + i = (i + 32 - n) % 32 := by omega
    simp [carried, position]
  · have position : i - n = (i + 32 - n) % 32 := by omega
    simp [carried, hi, position]

/-- Settles O26: the formula is the definition, and each bit is the library rotation's. -/
theorem rotlMovesEveryBit : Obligations.RotlMovesEveryBit :=
  fun x _ _ upper => ⟨rfl, fun _ hi => rotl32_getLsbD x (by omega) hi⟩

/-- Two rotations that together are a whole turn cancel (R78). -/
theorem rotl32_whole_turn (x : Word) {m n : Nat} (hm : m < 32) (hn : n < 32) (turn : m + n = 32) :
    rotl32 (rotl32 x m) n = x := by
  refine BitVec.eq_of_getLsbD_eq fun i hi => ?_
  rw [rotl32_getLsbD _ hn hi, rotl32_getLsbD _ hm (Nat.mod_lt _ (by decide))]
  congr 1
  omega

theorem rotr32_rotl32 (x : Word) {n : Nat} (pos : 0 < n) (h : n < 32) : rotr32 (rotl32 x n) n = x :=
  rotl32_whole_turn x h (by omega) (by omega)

theorem rotl32_rotr32 (x : Word) {n : Nat} (pos : 0 < n) (h : n < 32) : rotl32 (rotr32 x n) n = x :=
  rotl32_whole_turn x (by omega) h (by omega)

/-! The quarter round (R71) and its inverse (R78). -/

/-- Settles O27: the eight steps are the definition's, each rotation the library's. -/
theorem quarterRoundSteps : Obligations.QuarterRoundSteps := by
  intro a0 b0 c0 d0
  simp only [quarterRound, wordArith, rotl32_eq_rotateLeft, Nat.reduceLT]

/-- Undoing the eight steps last to first: each rotation, each exclusive or and each sum meets its own inverse. -/
theorem quarterRoundInverse_quarterRound (q : Quad Word) : quarterRoundInverse (quarterRound wordArith q) = q := by
  simp only [quarterRoundInverse, quarterRound, wordArith, rotr32_rotl32, xor_cancel_right, add_sub_cancel_right,
    Nat.ofNat_pos, Nat.reduceLT]

theorem quarterRound_quarterRoundInverse (q : Quad Word) : quarterRound wordArith (quarterRoundInverse q) = q := by
  simp only [quarterRoundInverse, quarterRound, wordArith, rotl32_rotr32, xor_cancel_right, sub_add_cancel,
    Nat.ofNat_pos, Nat.reduceLT]

theorem quarterRound_bijective : Function.Bijective (quarterRound wordArith) :=
  Function.bijective_iff_has_inverse.2
    ⟨quarterRoundInverse, quarterRoundInverse_quarterRound, quarterRound_quarterRoundInverse⟩

/-! The columns and the diagonals of the four by four matrix (R72, R73, R76). -/

/-- The sixteen words as four columns: column k is words k, 4 + k, 8 + k, 12 + k (R76). -/
def columns (α : Type) : Regs α ≃ (Fin 4 → Quad α) where
  toFun w := ![⟨w.w0, w.w4, w.w8, w.w12⟩, ⟨w.w1, w.w5, w.w9, w.w13⟩, ⟨w.w2, w.w6, w.w10, w.w14⟩,
    ⟨w.w3, w.w7, w.w11, w.w15⟩]
  invFun c :=
    { w0 := (c 0).a, w4 := (c 0).b, w8 := (c 0).c, w12 := (c 0).d
      w1 := (c 1).a, w5 := (c 1).b, w9 := (c 1).c, w13 := (c 1).d
      w2 := (c 2).a, w6 := (c 2).b, w10 := (c 2).c, w14 := (c 2).d
      w3 := (c 3).a, w7 := (c 3).b, w11 := (c 3).c, w15 := (c 3).d }
  left_inv _ := rfl
  right_inv c := by
    ext k : 1
    fin_cases k <;> rfl

/-- The sixteen words as four diagonals: diagonal k is words k, 4 + (k + 1) mod 4, 8 + (k + 2) mod 4,
12 + (k + 3) mod 4 (R76). -/
def diagonals (α : Type) : Regs α ≃ (Fin 4 → Quad α) where
  toFun w := ![⟨w.w0, w.w5, w.w10, w.w15⟩, ⟨w.w1, w.w6, w.w11, w.w12⟩, ⟨w.w2, w.w7, w.w8, w.w13⟩,
    ⟨w.w3, w.w4, w.w9, w.w14⟩]
  invFun c :=
    { w0 := (c 0).a, w5 := (c 0).b, w10 := (c 0).c, w15 := (c 0).d
      w1 := (c 1).a, w6 := (c 1).b, w11 := (c 1).c, w12 := (c 1).d
      w2 := (c 2).a, w7 := (c 2).b, w8 := (c 2).c, w13 := (c 2).d
      w3 := (c 3).a, w4 := (c 3).b, w9 := (c 3).c, w14 := (c 3).d }
  left_inv _ := rfl
  right_inv c := by
    ext k : 1
    fin_cases k <;> rfl

theorem toList_columns {α : Type} (w : Regs α) (k : Fin 4) :
    w.toList[k.val]? = some (columns α w k).a ∧ w.toList[4 + k.val]? = some (columns α w k).b ∧
      w.toList[8 + k.val]? = some (columns α w k).c ∧ w.toList[12 + k.val]? = some (columns α w k).d := by
  fin_cases k <;> exact ⟨rfl, rfl, rfl, rfl⟩

theorem toList_diagonals {α : Type} (w : Regs α) (k : Fin 4) :
    w.toList[k.val]? = some (diagonals α w k).a ∧ w.toList[4 + (k.val + 1) % 4]? = some (diagonals α w k).b ∧
      w.toList[8 + (k.val + 2) % 4]? = some (diagonals α w k).c ∧
      w.toList[12 + (k.val + 3) % 4]? = some (diagonals α w k).d := by
  fin_cases k <;> exact ⟨rfl, rfl, rfl, rfl⟩

theorem columns_eq_iff {α : Type} (w : Regs α) (q : Quad α) (k : Fin 4) :
    columns α w k = q ↔ w.toList[k.val]? = some q.a ∧ w.toList[4 + k.val]? = some q.b ∧
      w.toList[8 + k.val]? = some q.c ∧ w.toList[12 + k.val]? = some q.d := by
  simp only [toList_columns, Option.some.injEq, Quad.ext_iff]

theorem diagonals_eq_iff {α : Type} (w : Regs α) (q : Quad α) (k : Fin 4) :
    diagonals α w k = q ↔ w.toList[k.val]? = some q.a ∧ w.toList[4 + (k.val + 1) % 4]? = some q.b ∧
      w.toList[8 + (k.val + 2) % 4]? = some q.c ∧ w.toList[12 + (k.val + 3) % 4]? = some q.d := by
  simp only [toList_diagonals, Option.some.injEq, Quad.ext_iff]

section
variable {α : Type} (op : Arith α)

/-- COLROUND quarter-rounds every column in place (R72). -/
theorem columnRound_eq :
    columnRound op = (columns α).symm ∘ Pi.map (fun _ => quarterRound op) ∘ columns α := rfl

/-- DIAGROUND quarter-rounds every diagonal in place (R73). -/
theorem diagonalRound_eq :
    diagonalRound op = (diagonals α).symm ∘ Pi.map (fun _ => quarterRound op) ∘ diagonals α := rfl

theorem columns_columnRound (w : Regs α) (k : Fin 4) :
    columns α (columnRound op w) k = quarterRound op (columns α w k) := by
  simp [columnRound_eq]

theorem diagonals_diagonalRound (w : Regs α) (k : Fin 4) :
    diagonals α (diagonalRound op w) k = quarterRound op (diagonals α w k) := by
  simp [diagonalRound_eq]

/-! The round pairs of the permutation (R74, R75). -/

theorem roundPairs_eq_iterate (k : Nat) : roundPairs op k = (doubleRound op)^[k] := by
  induction k with
  | zero => rfl
  | succ k ih => rw [Function.iterate_succ, ← ih]; rfl

theorem permuteOver_eq_iterate (w : Regs α) (rounds : Nat) :
    permuteOver op w rounds = (doubleRound op)^[rounds / 2] w :=
  congrFun (roundPairs_eq_iterate op _) w

theorem permuteOver_add_two (w : Regs α) (rounds : Nat) :
    permuteOver op w (rounds + 2) = permuteOver op (doubleRound op w) rounds := by
  rw [permuteOver, Nat.add_div_right _ (by decide)]
  rfl

end

/-- Settles O28: the inverse undoes QR step by step; a round is QR at every column or diagonal between two bijections
of the sixteen words with the four columns or diagonals, and the permutation is an iterate of their composition. -/
theorem roundTransformIsBijective : Obligations.RoundTransformIsBijective := by
  have everyQuad : Function.Bijective (Pi.map fun _ : Fin 4 => quarterRound wordArith) :=
    Function.Bijective.piMap fun _ => quarterRound_bijective
  have column : Function.Bijective (columnRound wordArith) :=
    (columns Word).symm.bijective.comp (everyQuad.comp (columns Word).bijective)
  have diagonal : Function.Bijective (diagonalRound wordArith) :=
    (diagonals Word).symm.bijective.comp (everyQuad.comp (diagonals Word).bijective)
  have double : Function.Bijective (doubleRound wordArith) := diagonal.comp column
  refine ⟨fun q => ⟨quarterRoundInverse_quarterRound q, quarterRound_quarterRoundInverse q⟩,
    column, diagonal, double, fun rounds => ?_⟩
  simpa only [permute, permuteOver_eq_iterate] using double.iterate (rounds / 2)

/-! Zero (R71, R77). -/

theorem quarterRound_zero : quarterRound wordArith ⟨0, 0, 0, 0⟩ = ⟨0, 0, 0, 0⟩ := by decide

theorem doubleRound_zero : doubleRound wordArith (Regs.all 0) = Regs.all 0 := by
  simp only [doubleRound, diagonalRound, columnRound, Regs.all, quarterRound_zero]

/-- Settles O30: zero is fixed by QR, so by a round pair, so by every iterate of it. -/
theorem permuteFixesZero : Obligations.PermuteFixesZero := fun rounds =>
  (permuteOver_eq_iterate ..).trans (Function.iterate_fixed doubleRound_zero (rounds / 2))

/-! The rounds by word index (R72 to R76). -/

/-- A State on which the order of the two rounds of a pair shows (R74): word 0 is 1 and the others are 0. -/
def oneThenZeros : Regs Word := { Regs.all 0 with w0 := 1 }

theorem columnRound_diagonalRound_ne :
    columnRound wordArith (diagonalRound wordArith oneThenZeros) ≠ doubleRound wordArith oneThenZeros := by
  decide +kernel

/-- Settles O29: a round leaves QR of each column or diagonal in its place, read off by word index; the rest are the
equations of the round pairs and R6. -/
theorem columnsAndDiagonalsOfTheMatrix : Obligations.ColumnsAndDiagonalsOfTheMatrix := by
  refine ⟨fun w => ⟨rfl, rfl, permuteOver_add_two wordArith w, permuteOver_eq_iterate wordArith w⟩,
    ⟨oneThenZeros, columnRound_diagonalRound_ne⟩, fun cfg rounds supported => ?_,
    fun w k a b c d hk => ⟨fun ha hb hc hd => ?_, fun ha hb hc hd => ?_⟩⟩
  · obtain ⟨even, lower, -⟩ := roundsSupported_legal supported
    exact ⟨even, lower⟩
  · have before : columns Word w ⟨k, hk⟩ = ⟨a, b, c, d⟩ := (columns_eq_iff ..).2 ⟨ha, hb, hc, hd⟩
    exact (columns_eq_iff _ _ ⟨k, hk⟩).1 (before ▸ columns_columnRound wordArith w ⟨k, hk⟩)
  · have before : diagonals Word w ⟨k, hk⟩ = ⟨a, b, c, d⟩ := (diagonals_eq_iff ..).2 ⟨ha, hb, hc, hd⟩
    exact (diagonals_eq_iff _ _ ⟨k, hk⟩).1 (before ▸ diagonals_diagonalRound wordArith w ⟨k, hk⟩)

end Sys2Proof.Machine
end

section
/-! PROOFS of 42_block_scalar: the block as bytes (R80, R81), the counter (R83, R84, R87), GEN1 (R85, R86) and XOR mode
(R88). R88 speaks of all four generation commands, so the runs of all four are shown here to be the same sequence of
scalar blocks (43_block_wide R92 to R98, 44_dispatch R104). -/

namespace Sys2Proof.Machine

/-! The block as bytes (R80, R81). -/

theorem bytes32_getElem? (w : Word) {b : Nat} (hb : b < 4) : (bytes32 w)[b]? = some (w.extractLsb' (8 * b) 8) := by
  match b, hb with
  | 0, _ | 1, _ | 2, _ | 3, _ => rfl

theorem flatMap_bytes32_getElem? {l : List Word} {j b : Nat} {w : Word} (hb : b < 4) (hw : l[j]? = some w) :
    (l.flatMap bytes32)[4 * j + b]? = some (w.extractLsb' (8 * b) 8) := by
  induction l generalizing j with
  | nil => cases hw
  | cons v vs ih =>
    rw [List.flatMap_cons]
    cases j with
    | zero =>
      cases hw
      rw [List.getElem?_append_left (by rw [bytes32_length]; omega), Nat.mul_zero, Nat.zero_add, bytes32_getElem? _ hb]
    | succ j =>
      rw [List.getElem?_append_right (by rw [bytes32_length]; omega), bytes32_length,
        show 4 * (j + 1) + b - 4 = 4 * j + b by omega]
      exact ih hw

theorem serialise_getElem? {o : Regs Word} {j b : Nat} {w : Word} (hb : b < 4) (hw : o.toList[j]? = some w) :
    (serialise o)[4 * j + b]? = some (w.extractLsb' (8 * b) 8) := flatMap_bytes32_getElem? hb hw

theorem toList_feedForward (w s : Regs Word) :
    (feedForward w s).toList = List.zipWith (fun p q => p + q) w.toList s.toList := rfl

theorem feedForward_getElem? {v s : Regs Word} {j : Nat} {p w : Word} (hp : v.toList[j]? = some p)
    (hw : s.toList[j]? = some w) :
    (feedForward v s).toList[j]? = some (BitVec.ofNat 32 ((p.toNat + w.toNat) % 2 ^ 32)) := by
  rw [toList_feedForward, List.getElem?_zipWith, hp, hw, ← BitVec.toNat_add, BitVec.ofNat_toNat, BitVec.setWidth_eq]

/-- Settles O31: each word of a block is four bytes of its list, and a keystream word is a feed-forward sum. -/
theorem serialisationIsLittleEndian : Obligations.SerialisationIsLittleEndian :=
  ⟨fun o _ _ _ _ hb hw => ⟨serialise_length o, serialise_getElem? hb hw⟩,
    fun s rounds _ _ _ _ _ hb hp hw =>
      ⟨keystream_length s rounds, serialise_getElem? hb (feedForward_getElem? hp hw)⟩⟩

/-! One advance (R83). -/

theorem word_add_one_eq_zero_iff (w : Word) : w + 1 = 0 ↔ w = 0xFFFFFFFF := by bv_omega

/-- Settles O33: the incremented low word is zero exactly when it was all ones. -/
theorem advanceCarriesUnderOriginalOnly : Obligations.AdvanceCarriesUnderOriginalOnly := by
  refine fun s => ⟨?_, rfl⟩
  rw [advance_frame, advance_original_w13]
  simp only [word_add_one_eq_zero_iff]

/-! ADVANCE_N counts in the block counter (R84). -/

theorem advanceN_eq_iterate (conv : Conv) (n : Nat) : advanceN conv n = (advance conv)^[n] := by
  induction n with
  | zero => rfl
  | succ n ih => rw [Function.iterate_succ, ← ih]; rfl

theorem advanceN_succ_apply (conv : Conv) (n : Nat) (s : Regs Word) :
    advanceN conv (n + 1) s = advance conv (advanceN conv n s) := by
  rw [advanceN_eq_iterate, advanceN_eq_iterate, Function.iterate_succ_apply']

theorem advanceN_advanceN (conv : Conv) (a b : Nat) (s : Regs Word) :
    advanceN conv b (advanceN conv a s) = advanceN conv (a + b) s := by
  simp only [advanceN_eq_iterate, Nat.add_comm a b, Function.iterate_add_apply]

/-- The words with the block counter at c, modulo its size (R16, R17, R87). -/
def withCounter (conv : Conv) (c : Nat) (s : Regs Word) : Regs Word :=
  match conv with
  | .original =>
    { s with w12 := BitVec.ofNat 32 (c % 2 ^ 64 % 2 ^ 32), w13 := BitVec.ofNat 32 (c % 2 ^ 64 / 2 ^ 32) }
  | .rfc7539 => { s with w12 := BitVec.ofNat 32 (c % 2 ^ 32) }

theorem counterOf_lt (conv : Conv) (s : Regs Word) : counterOf conv s < counterSize conv := by
  cases conv with
  | original => simp only [counterOf, counterSize, counter64]; omega
  | rfc7539 => exact s.w12.isLt

theorem counterOf_withCounter (conv : Conv) (c : Nat) (s : Regs Word) :
    counterOf conv (withCounter conv c s) = c % counterSize conv := by
  cases conv with
  | original => simp only [counterOf, counterSize, counter64, withCounter, BitVec.toNat_ofNat]; omega
  | rfc7539 => simp only [counterOf, counterSize, withCounter, BitVec.toNat_ofNat]; omega

theorem keyNonce_withCounter (conv : Conv) (c : Nat) (s : Regs Word) :
    keyNonce conv (withCounter conv c s) = keyNonce conv s := by cases conv <;> rfl

/-- The counter and what keyNonce keeps are all of the words. -/
theorem withCounter_counterOf (conv : Conv) (s : Regs Word) : withCounter conv (counterOf conv s) s = s := by
  cases conv with
  | original =>
    have low : BitVec.ofNat 32 (counter64 s % 2 ^ 64 % 2 ^ 32) = s.w12 :=
      BitVec.eq_of_toNat_eq (by rw [BitVec.toNat_ofNat, counter64]; omega)
    have high : BitVec.ofNat 32 (counter64 s % 2 ^ 64 / 2 ^ 32) = s.w13 :=
      BitVec.eq_of_toNat_eq (by rw [BitVec.toNat_ofNat, counter64]; omega)
    simp only [counterOf, withCounter, low, high]
  | rfc7539 =>
    have low : BitVec.ofNat 32 (s.w12.toNat % 2 ^ 32) = s.w12 :=
      BitVec.eq_of_toNat_eq (by rw [BitVec.toNat_ofNat]; omega)
    simp only [counterOf, withCounter, low]

theorem withCounter_add_size (conv : Conv) (c : Nat) (s : Regs Word) :
    withCounter conv (c + counterSize conv) s = withCounter conv c s := by
  cases conv <;> simp only [withCounter, counterSize, Nat.add_mod_right]

/-- ADVANCE is one more in the counter: under ORIGINAL the carry is that of the 64-bit sum. -/
theorem advance_withCounter (conv : Conv) (c : Nat) (s : Regs Word) :
    advance conv (withCounter conv c s) = withCounter conv (c + 1) s := by
  cases conv with
  | original =>
    have low : BitVec.ofNat 32 (c % 2 ^ 64 % 2 ^ 32) + 1 = BitVec.ofNat 32 ((c + 1) % 2 ^ 64 % 2 ^ 32) := by
      apply BitVec.eq_of_toNat_eq
      simp only [BitVec.ofNat_eq_ofNat, BitVec.toNat_add, BitVec.toNat_ofNat]
      omega
    have high : (if BitVec.ofNat 32 ((c + 1) % 2 ^ 64 % 2 ^ 32) = 0 then BitVec.ofNat 32 (c % 2 ^ 64 / 2 ^ 32) + 1
        else BitVec.ofNat 32 (c % 2 ^ 64 / 2 ^ 32)) = BitVec.ofNat 32 ((c + 1) % 2 ^ 64 / 2 ^ 32) := by
      simp only [← BitVec.toNat_inj, apply_ite BitVec.toNat, BitVec.ofNat_eq_ofNat, BitVec.toNat_add,
        BitVec.toNat_ofNat]
      split <;> omega
    rw [advance_frame, advance_original_w13]
    simp only [withCounter, low, high]
  | rfc7539 =>
    have low : BitVec.ofNat 32 (c % 2 ^ 32) + 1 = BitVec.ofNat 32 ((c + 1) % 2 ^ 32) := by
      apply BitVec.eq_of_toNat_eq
      simp only [BitVec.ofNat_eq_ofNat, BitVec.toNat_add, BitVec.toNat_ofNat]
      omega
    simp only [advance, withCounter, low]

theorem advanceN_withCounter (conv : Conv) (n c : Nat) (s : Regs Word) :
    advanceN conv n (withCounter conv c s) = withCounter conv (c + n) s := by
  induction n generalizing c with
  | zero => rfl
  | succ n ih => rw [advanceN_succ, advance_withCounter, ih, Nat.add_right_comm, Nat.add_assoc]

/-- The closed form of R84: ADVANCE_N adds n to the counter. -/
theorem advanceN_eq_withCounter (conv : Conv) (n : Nat) (s : Regs Word) :
    advanceN conv n s = withCounter conv (counterOf conv s + n) s := by
  rw [← advanceN_withCounter, withCounter_counterOf]

theorem counterOf_advanceN (conv : Conv) (n : Nat) (s : Regs Word) :
    counterOf conv (advanceN conv n s) = (counterOf conv s + n) % counterSize conv := by
  rw [advanceN_eq_withCounter, counterOf_withCounter]

theorem keyNonce_advanceN (conv : Conv) (n : Nat) (s : Regs Word) :
    keyNonce conv (advanceN conv n s) = keyNonce conv s := by
  rw [advanceN_eq_withCounter, keyNonce_withCounter]

theorem advanceN_rfc7539 (n : Nat) (s : Regs Word) :
    advanceN .rfc7539 n s = { s with w12 := s.w12 + BitVec.ofNat 32 n } := by
  have low : BitVec.ofNat 32 ((s.w12.toNat + n) % 2 ^ 32) = s.w12 + BitVec.ofNat 32 n := by
    apply BitVec.eq_of_toNat_eq
    simp only [BitVec.toNat_add, BitVec.toNat_ofNat]
    omega
  simp only [advanceN_eq_withCounter, counterOf, withCounter, low]

/-- Settles O34: ADVANCE_N is an iterate, which gives its recursion and its sum, and a sum in the counter, which gives
its closed form. -/
theorem advanceNClosedForm : Obligations.AdvanceNClosedForm := fun s n =>
  ⟨fun conv => ⟨rfl, advanceN_succ_apply conv n s⟩, advanceN_eq_withCounter .original n s, advanceN_rfc7539 n s,
    fun conv a b => advanceN_advanceN conv a b s⟩

/-! The counter wraps (R87). -/

theorem advanceN_counterSize (conv : Conv) (s : Regs Word) : advanceN conv (counterSize conv) s = s := by
  rw [advanceN_eq_withCounter, withCounter_add_size, withCounter_counterOf]

/-- While the counter has room, the number of advances can be read off it (R133 (d)). -/
theorem advanceN_injective_of_room {conv : Conv} {s : Regs Word} {nb p q : Nat} (room : CounterRoom conv s nb)
    (hp : p < nb) (hq : q < nb) (h : advanceN conv p s = advanceN conv q s) : p = q := by
  have counters := congrArg (counterOf conv) h
  rw [CounterRoom] at room
  rw [counterOf_advanceN, counterOf_advanceN, Nat.mod_eq_of_lt (by omega), Nat.mod_eq_of_lt (by omega)] at counters
  omega

/-- Two uses that reach one State have its key and nonce and its counter value in common. -/
theorem covers_common_of_advanceN_eq {u v : KeystreamUse} {p q : Nat} (hc : u.conv = v.conv) (hp : p < u.blocks)
    (hq : q < v.blocks) (h : advanceN u.conv p u.words = advanceN v.conv q v.words) :
    keyNonce u.conv u.words = keyNonce v.conv v.words ∧ ∃ c, u.covers c ∧ v.covers c := by
  refine ⟨?_, counterOf u.conv (advanceN u.conv p u.words), ⟨p, hp, counterOf_advanceN ..⟩, ⟨q, hq, ?_⟩⟩
  · rw [← keyNonce_advanceN u.conv p, h, hc, keyNonce_advanceN]
  · rw [h, hc, counterOf_advanceN]

/-- Settles O35: the counter is read modulo its size, and a State recurs only where its counter value does. -/
theorem counterWrapsAndIsDistinctBefore : Obligations.CounterWrapsAndIsDistinctBefore := by
  refine ⟨fun s => ⟨advanceN_counterSize .original s, advanceN_counterSize .rfc7539 s,
    fun _ _ _ _ room hp hq => advanceN_injective_of_room room hp hq⟩, fun uses fresh => ?_⟩
  refine fresh.imp fun apart hc p hp q hq same => ?_
  obtain ⟨keys, c, common⟩ := covers_common_of_advanceN_eq hc hp hq same
  exact apart hc keys c common

/-! The blocks of a wide invocation (43_block_wide R92 to R98). -/

/-- After VLOAD lane i is i advances on: the lane counters are the counter's closed form (R92, R93). -/
theorem lane_vload (n : Nat) (conv : Conv) (s : Regs Word) (i : Fin n) :
    lane (vload n conv s) i = advanceN conv i.val s := by
  rw [advanceN_eq_withCounter]
  cases conv <;> rfl

theorem lane_doubleRound {n : Nat} (v : Regs (Vec n)) (i : Fin n) :
    lane (doubleRound (vecArith n) v) i = doubleRound wordArith (lane v i) := rfl

theorem lane_permuteOver {n : Nat} (v : Regs (Vec n)) (rounds : Nat) (i : Fin n) :
    lane (permuteOver (vecArith n) v rounds) i = permute (lane v i) rounds := by
  have pair : Function.Semiconj (lane · i) (doubleRound (vecArith n)) (doubleRound wordArith) :=
    fun v => lane_doubleRound v i
  rw [permute, permuteOver_eq_iterate, permuteOver_eq_iterate]
  exact (pair.iterate_right (rounds / 2)).eq v

theorem lane_vfeed {n : Nat} (v v0 : Regs (Vec n)) (i : Fin n) :
    lane (vfeed v v0) i = feedForward (lane v i) (lane v0 i) := rfl

/-- The lanes' blocks are the keystream blocks of the advanced States (R98). -/
theorem wideBlocks_eq (n : Nat) (conv : Conv) (s : Regs Word) (rounds : Nat) :
    wideBlocks n conv s rounds = (List.range n).map fun i => keystream (advanceN conv i s) rounds := by
  rw [← List.map_coe_finRange_eq_range, List.map_map, ← List.ofFn_eq_map]
  refine congrArg List.ofFn (funext fun i => ?_)
  rw [lane_vfeed, lane_permuteOver, lane_vload]
  rfl

/-! Every run is a sequence of scalar blocks (R85; 43_block_wide R98, 44_dispatch R104). -/

/-- Scalar blocks one after the other from a window offset. -/
def scalarBlocks (x : Bool) (rounds : Nat) : Nat → Nat → State → Option State
  | 0, _, s => some s
  | n + 1, off, s => (scalarBlock x rounds off s).bind (scalarBlocks x rounds n (off + 64))

theorem scalarBlocks_one (x : Bool) (rounds off : Nat) (s : State) :
    scalarBlocks x rounds 1 off s = scalarBlock x rounds off s := Option.bind_fun_some (scalarBlock x rounds off s)

theorem scalarBlocks_add (x : Bool) (rounds m n off : Nat) (s : State) :
    scalarBlocks x rounds (m + n) off s =
      (scalarBlocks x rounds m off s).bind (scalarBlocks x rounds n (off + 64 * m)) := by
  induction m generalizing off s with
  | zero => rw [Nat.zero_add]; rfl
  | succ m ih =>
    rw [Nat.succ_add_eq_add_succ, Nat.add_succ, scalarBlocks, scalarBlocks, Option.bind_assoc]
    refine congrArg _ (funext fun t => ?_)
    rw [ih, show off + 64 * (m + 1) = off + 64 + 64 * m by omega]

theorem scalarBlock_eq (x : Bool) (rounds off : Nat) (s : State) :
    scalarBlock x rounds off s = (storeBlock x off (keystream s.words rounds) s).map (·.advanceBy 1) := by
  simp only [scalarBlock]
  cases storeBlock x off (keystream s.words rounds) s <;> rfl

/-- A scalar block is the write of its stored bytes, then the advance (R86). -/
theorem scalarBlock_eq_some_iff {x : Bool} {rounds off : Nat} {s t : State} :
    scalarBlock x rounds off s = some t ↔
      ∃ bytes, storedBytes x off (keystream s.words rounds) s.inWin = some bytes ∧
        (s.writeOut off bytes).advanceBy 1 = t := by
  rw [scalarBlock_eq, storeBlock_eq, Option.map_map, Option.map_eq_some_iff]
  rfl

theorem storeBlocks_cons (x : Bool) (ks : List Byte) (rest : List (List Byte)) (off : Nat) (s : State) :
    storeBlocks x (ks :: rest) off s = (storeBlock x off ks s).bind (storeBlocks x rest (off + 64)) := by
  simp only [storeBlocks]
  cases storeBlock x off ks s <;> rfl

theorem wideGroup_eq (n : Nat) (x : Bool) (rounds off : Nat) (s : State) :
    wideGroup n x rounds off s =
      (storeBlocks x (wideBlocks n s.conv s.words rounds) off s).map (·.advanceBy n) := by
  simp only [wideGroup]
  cases storeBlocks x (wideBlocks n s.conv s.words rounds) off s <;> rfl

theorem runSchedule_cons (x : Bool) (rounds : Nat) (b : Backend) (rest : List Backend) (off : Nat) (s : State) :
    runSchedule x rounds (b :: rest) off s =
      (runGroup b x rounds off s).bind (runSchedule x rounds rest (off + 64 * b.width)) := by
  simp only [runSchedule]
  cases runGroup b x rounds off s <;> rfl

/-- A store reads no word and writes none: it may come before an advance or after it. -/
theorem storeBlock_advanceBy (x : Bool) (off : Nat) (ks : List Byte) (s : State) (n : Nat) :
    storeBlock x off ks (s.advanceBy n) = (storeBlock x off ks s).map (·.advanceBy n) := by
  rw [storeBlock_eq, storeBlock_eq, Option.map_map]
  rfl

theorem storeBlocks_advanceBy (x : Bool) (blocks : List (List Byte)) (off : Nat) (s : State) (n : Nat) :
    storeBlocks x blocks off (s.advanceBy n) = (storeBlocks x blocks off s).map (·.advanceBy n) := by
  induction blocks generalizing off s with
  | nil => rfl
  | cons ks rest ih =>
    rw [storeBlocks_cons, storeBlocks_cons, storeBlock_advanceBy, Option.map_bind, Option.bind_map]
    exact congrArg _ (funext fun t => ih (off + 64) t)

/-- One store of all blocks and one advance is block by block store and advance, as each block is that of the State as
far as the advance has come (R86, R97). -/
theorem storeBlocks_keystreams (x : Bool) (rounds n off : Nat) (s : State) :
    (storeBlocks x ((List.range n).map fun i => keystream (advanceN s.conv i s.words) rounds) off s).map
      (·.advanceBy n) = scalarBlocks x rounds n off s := by
  induction n generalizing off s with
  | zero => rfl
  | succ n ih =>
    rw [List.range_succ_eq_map, List.map_cons, List.map_map, storeBlocks_cons, scalarBlocks, scalarBlock_eq,
      Option.map_bind, Option.bind_map, advanceN_zero, storeBlock_eq, Option.bind_map, Option.bind_map]
    refine congrArg _ (funext fun bytes => ?_)
    have others := ih (off + 64) ((s.writeOut off bytes).advanceBy 1)
    rw [storeBlocks_advanceBy, Option.map_map] at others
    exact others

theorem wideGroup_eq_scalarBlocks (n : Nat) (x : Bool) (rounds off : Nat) (s : State) :
    wideGroup n x rounds off s = scalarBlocks x rounds n off s := by
  rw [wideGroup_eq, wideBlocks_eq, storeBlocks_keystreams]

theorem runGroup_eq_scalarBlocks (b : Backend) (x : Bool) (rounds off : Nat) (s : State) :
    runGroup b x rounds off s = scalarBlocks x rounds b.width off s := by
  cases b with
  | scalar => exact (scalarBlocks_one x rounds off s).symm
  | v4 => exact wideGroup_eq_scalarBlocks 4 x rounds off s
  | v8 => exact wideGroup_eq_scalarBlocks 8 x rounds off s

theorem runSchedule_eq_scalarBlocks (x : Bool) (rounds : Nat) (groups : List Backend) (off : Nat) (s : State) :
    runSchedule x rounds groups off s = scalarBlocks x rounds (groups.map Backend.width).sum off s := by
  induction groups generalizing off s with
  | nil => rfl
  | cons b rest ih =>
    rw [runSchedule_cons, runGroup_eq_scalarBlocks, List.map_cons, List.sum_cons, scalarBlocks_add]
    exact congrArg _ (funext fun t => ih (off + 64 * b.width) t)

/-- Whatever its backend or schedule, a generation command runs its NB scalar blocks from offset 0 (R99, R108). -/
theorem GenKind.run_eq_scalarBlocks (k : GenKind) (x : Bool) (rounds : Nat) (s : State) :
    k.run x rounds s = scalarBlocks x rounds k.blocks 0 s := by
  cases k with
  | one => exact (scalarBlocks_one x rounds 0 s).symm
  | four => exact wideGroup_eq_scalarBlocks 4 x rounds 0 s
  | eight => exact wideGroup_eq_scalarBlocks 8 x rounds 0 s
  | dispatch pref len =>
    rw [GenKind.run, runSchedule_eq_scalarBlocks, schedule_widths]
    rfl

/-! What a sequence of scalar blocks leaves (R34, R85, R86). -/

theorem keystream_getElem?_some (s : Regs Word) (rounds : Nat) {k : Nat} (hk : k < 64) :
    ∃ a, (keystream s rounds)[k]? = some a :=
  ⟨_, List.getElem?_eq_getElem (by rwa [keystream_length])⟩

theorem scalarBlock_byte {x : Bool} {rounds off k : Nat} {s t : State} {a : Byte} (hk : k < 64)
    (ha : (keystream s.words rounds)[k]? = some a) (h : scalarBlock x rounds off s = some t) :
    t.outWin.read (off + k) = if x then (s.inWin.read (off + k)).map (fun p => a ^^^ p) else some a := by
  obtain ⟨bytes, hb, rfl⟩ := scalarBlock_eq_some_iff.1 h
  obtain ⟨length, each⟩ := storedBytes_spec x off _ s.inWin bytes (keystream_length _ _) hb
  have byte := each k hk
  simp only [ha] at byte
  rw [← byte, State.advanceBy_outWin, State.writeOut_outWin, Memory.read_writeBytes,
    if_pos (by omega), Nat.add_sub_cancel_left]

theorem blockByte_eq {x : Bool} {rounds off : Nat} {s : State} {a : Byte}
    (ha : (keystream (advanceN s.conv (off / 64) s.words) rounds)[off % 64]? = some a) :
    blockByte x rounds s off = if x then (s.inWin.read off).map (fun p => a ^^^ p) else some a := by
  simp only [blockByte, ha]

theorem scalarBlock_words {x : Bool} {rounds off : Nat} {s t : State} (h : scalarBlock x rounds off s = some t) :
    t.words = advanceN s.conv 1 s.words := by
  obtain ⟨bytes, -, rfl⟩ := scalarBlock_eq_some_iff.1 h
  rfl

theorem Emitted.conv {x : Bool} {rounds nb : Nat} {s t : State} (h : Emitted x rounds nb s t) : t.conv = s.conv := by
  rw [h.rest]

theorem Emitted.inWin {x : Bool} {rounds nb : Nat} {s t : State} (h : Emitted x rounds nb s t) :
    t.inWin = s.inWin := by
  rw [h.rest]

theorem Emitted.refl (x : Bool) (rounds : Nat) (s : State) : Emitted x rounds 0 s s :=
  ⟨rfl, fun _ below => absurd below (Nat.not_lt_zero _), fun _ _ => rfl, rfl⟩

/-- One more scalar block after nb blocks is block nb of the State before them (R86). -/
theorem Emitted.snoc {x : Bool} {rounds nb : Nat} {s t u : State} (before : Emitted x rounds nb s t)
    (h : scalarBlock x rounds (64 * nb) t = some u) : Emitted x rounds (nb + 1) s u where
  words := by rw [scalarBlock_words h, before.conv, before.words, advanceN_advanceN]
  inside off below := by
    have written := scalarBlock_written h
    by_cases earlier : off < 64 * nb
    · rw [written.outside off (.inl earlier)]
      exact before.inside off earlier
    · obtain ⟨k, hk, rfl⟩ : ∃ k < 64, off = 64 * nb + k := ⟨off - 64 * nb, by omega, by omega⟩
      obtain ⟨a, ha⟩ := keystream_getElem?_some t.words rounds hk
      have byte := scalarBlock_byte hk ha h
      rw [before.inWin] at byte
      rw [before.words] at ha
      refine ⟨written.inside _ (by omega) (by omega), byte.trans (blockByte_eq ?_).symm⟩
      rwa [show (64 * nb + k) / 64 = nb by omega, show (64 * nb + k) % 64 = k by omega]
  outside off above := by
    rw [(scalarBlock_written h).outside off (by omega), before.outside off (by omega)]
  rest := by rw [(scalarBlock_frame h).rest, before.rest]

theorem scalarBlocks_succ (x : Bool) (rounds n : Nat) (s : State) :
    scalarBlocks x rounds (n + 1) 0 s = (scalarBlocks x rounds n 0 s).bind (scalarBlock x rounds (64 * n)) := by
  rw [scalarBlocks_add, Nat.zero_add]
  exact congrArg _ (funext fun t => scalarBlocks_one x rounds (64 * n) t)

theorem scalarBlocks_emitted {x : Bool} {rounds n : Nat} {s t : State} (h : scalarBlocks x rounds n 0 s = some t) :
    Emitted x rounds n s t := by
  induction n generalizing t with
  | zero => cases h; exact .refl x rounds _
  | succ n ih =>
    rw [scalarBlocks_succ, Option.bind_eq_some_iff] at h
    obtain ⟨u, hu, last⟩ := h
    exact (ih hu).snoc last

theorem scalarBlock_completes {x : Bool} {off : Nat} (rounds : Nat) {s : State}
    (covers : x = true → InputCovers s.inWin (off + 64)) : ∃ t, scalarBlock x rounds off s = some t := by
  obtain ⟨bytes, hb⟩ := Option.isSome_iff_exists.1 <|
    (storedBytes_isSome x off (keystream s.words rounds) s.inWin).2 fun hx k hk => covers hx (off + k) (by omega)
  exact ⟨_, scalarBlock_eq_some_iff.2 ⟨bytes, hb, rfl⟩⟩

theorem scalarBlocks_completes {x : Bool} (rounds : Nat) {n : Nat} {s : State}
    (covers : x = true → InputCovers s.inWin (64 * n)) : ∃ t, scalarBlocks x rounds n 0 s = some t := by
  induction n with
  | zero => exact ⟨s, rfl⟩
  | succ n ih =>
    obtain ⟨t, ht⟩ := ih fun hx off below => covers hx off (by omega)
    rw [scalarBlocks_succ, ht]
    exact scalarBlock_completes rounds ((scalarBlocks_emitted ht).inWin ▸ covers)

/-! The four generation commands (R33, R121). -/

theorem exec_generation_ready {k : GenKind} {rounds : Nat} {s : State} (ready : Ready k.backend rounds s) (x : Bool) :
    exec (k.command x rounds) s = accepted none k.blocks (scalarBlocks x rounds k.blocks 0 s) s := by
  obtain ⟨supported, available, valid⟩ := ready
  rw [exec_generation, supported, available, valid, GenKind.run_eq_scalarBlocks]
  rfl

/-- An accepted generation command that completes has emitted its blocks. -/
theorem exec_generation_emitted {k : GenKind} {x : Bool} {rounds : Nat} {s t : State}
    (ready : Ready k.backend rounds s) (h : exec (k.command x rounds) s = .next t) :
    Emitted x rounds k.blocks s t := by
  rw [exec_generation_ready ready] at h
  rcases accepted_next _ _ _ _ _ h with ⟨c, none_eq, -⟩ | ⟨-, -, run⟩
  · cases none_eq
  · exact scalarBlocks_emitted run

/-- An accepted generation command whose windows are as R133 (e) asks completes. -/
theorem exec_generation_completes {k : GenKind} {x : Bool} {rounds : Nat} {s : State}
    (ready : Ready k.backend rounds s) (room : OutputHolds s (64 * k.blocks))
    (covers : x = true → InputCovers s.inWin (64 * k.blocks)) :
    ∃ t, exec (k.command x rounds) s = .next t ∧ Emitted x rounds k.blocks s t := by
  obtain ⟨t, ht⟩ := scalarBlocks_completes rounds covers
  refine ⟨t, ?_, scalarBlocks_emitted ht⟩
  rw [exec_generation_ready ready, ht, accepted_none_some, if_pos room]

/-- Settles O36: GEN1 is the generation command of one block, with the backend that is always there. -/
theorem gen1EmitsOneBlock : Obligations.Gen1EmitsOneBlock :=
  fun _ _ _ supported valid room covers =>
    exec_generation_completes (k := .one) ⟨supported, rfl, valid⟩ room covers

/-! XOR mode (R88). -/

/-- Without input the byte of OUT is the keystream byte. -/
theorem Emitted.byte_raw {rounds nb off : Nat} {s t : State} {a : Byte} (h : Emitted false rounds nb s t)
    (below : off < 64 * nb) (ha : (keystream (advanceN s.conv (off / 64) s.words) rounds)[off % 64]? = some a) :
    t.outWin.read off = some a :=
  (h.inside off below).2.trans (blockByte_eq ha)

/-- In XOR mode the input byte was there, and the byte of OUT is the keystream byte xor it. -/
theorem Emitted.byte_xor {rounds nb off : Nat} {s t : State} {a : Byte} (h : Emitted true rounds nb s t)
    (below : off < 64 * nb) (ha : (keystream (advanceN s.conv (off / 64) s.words) rounds)[off % 64]? = some a) :
    ∃ p, s.inWin.read off = some p ∧ t.outWin.read off = some (a ^^^ p) := by
  obtain ⟨written, value⟩ := h.inside off below
  rw [blockByte_eq ha, if_pos rfl] at value
  rw [value, Option.isSome_map] at written
  obtain ⟨p, hp⟩ := Option.isSome_iff_exists.1 written
  exact ⟨p, hp, by rw [value, hp]; rfl⟩

/-- Settles O37: both runs meet the same keystream byte at an offset; xor with it twice is the plaintext. -/
theorem xorModeIsInvolutionAndHandXor : Obligations.XorModeIsInvolutionAndHandXor := by
  intro k rounds s t ready ht
  have cipher := exec_generation_emitted ready ht
  have keyByte (off : Nat) := keystream_getElem?_some (advanceN s.conv (off / 64) s.words) rounds
    (Nat.mod_lt off (by decide : 0 < 64))
  refine ⟨fun u v words conv readyU same hv off below => ?_, fun r hr => ?_⟩
  · obtain ⟨a, ha⟩ := keyByte off
    obtain ⟨p, hp, hc⟩ := cipher.byte_xor below ha
    obtain ⟨c, hin, hout⟩ := (exec_generation_emitted readyU hv).byte_xor below (by rwa [words, conv])
    rw [same off below, hc, Option.some.injEq] at hin
    rw [hout, hp, ← hin, ← BitVec.xor_assoc, BitVec.xor_self, BitVec.zero_xor]
  · have raw := exec_generation_emitted ready hr
    refine ⟨raw.words.trans cipher.words.symm, fun off below => ?_⟩
    obtain ⟨a, ha⟩ := keyByte off
    obtain ⟨p, hp, hc⟩ := cipher.byte_xor below ha
    exact ⟨a, p, raw.byte_raw below ha, hp, hc⟩

end Sys2Proof.Machine
end

section
/-! PROOFS of 43_block_wide: the lanes (R92 to R96, R98), GEN4 and GEN8 (R100, R101), the missing backend (R102), and
the contract that a wide invocation is a sequence of GEN1 commands (R99), shown for every generation command. -/

namespace Sys2Proof.Machine

/-! The lanes (R92 to R96, R98). -/

/-- Settles O40: each lane counter is the closed form of the counter advanced by the lane's number. -/
theorem vloadLanesAreAdvancedStates : Obligations.VloadLanesAreAdvancedStates := lane_vload

/-- Settles O41: a lane of the vector round pairs is the word round pairs of that lane, whatever VLOAD put there. -/
theorem vectorRoundsPermuteEveryLane : Obligations.VectorRoundsPermuteEveryLane :=
  fun n rounds i => ⟨fun v => lane_permuteOver v rounds i,
    fun conv s => by rw [lane_permuteOver, lane_vload]⟩

/-- Settles O42: each lane is loaded with its advanced State, permuted, and fed forward with what it was loaded with. -/
theorem wideBlocksAreKeystreamsInCounterOrder : Obligations.WideBlocksAreKeystreamsInCounterOrder := wideBlocks_eq

/-! GEN4 and GEN8 (R100, R101). -/

/-- Settles O43: GEN4 is the generation command of four blocks, and runs four scalar blocks. -/
theorem gen4EmitsFourBlocks : Obligations.Gen4EmitsFourBlocks :=
  fun _ _ _ supported available valid room covers =>
    exec_generation_completes (k := .four) ⟨supported, available, valid⟩ room covers

/-- Settles O44: GEN8 is the generation command of eight blocks, and runs eight scalar blocks. -/
theorem gen8EmitsEightBlocks : Obligations.Gen8EmitsEightBlocks :=
  fun _ _ _ supported available valid room covers =>
    exec_generation_completes (k := .eight) ⟨supported, available, valid⟩ room covers

/-! A missing backend (R102). -/

/-- The requested backend is checked before anything the command does, LEN included (R106, R121). -/
theorem exec_generation_backendUnavailable (k : GenKind) (x : Bool) {rounds : Nat} {s : State}
    (supported : roundsSupported s.cfg rounds = true) (unavailable : k.backend.available s.cfg = false) :
    exec (k.command x rounds) s = .next (raiseFault .backendUnavailable s) := by
  rw [exec_generation, supported, unavailable]
  rfl

/-- Settles O45: the four commands fail the same check, that of the backend they request. -/
theorem missingBackendFaults : Obligations.MissingBackendFaults :=
  fun x _ len _ supported =>
    ⟨fun noV4 => ⟨exec_generation_backendUnavailable .four x supported noV4,
      exec_generation_backendUnavailable (.dispatch .v4 len) x supported noV4⟩,
    fun noV8 => ⟨exec_generation_backendUnavailable .eight x supported noV8,
      exec_generation_backendUnavailable (.dispatch .v8 len) x supported noV8⟩⟩

/-! Pieces of a window (R99). -/

/-- What a row of writes put at an offset is what a read of that row answers. -/
theorem Memory.readBytes_writeBytes (m : Memory) (off : Nat) (bytes : List Byte) :
    (m.writeBytes off bytes).readBytes off bytes.length = some bytes := by
  induction bytes generalizing m off with
  | nil => rfl
  | cons b bs ih =>
    have first : ((m.write off b).writeBytes (off + 1) bs).read off = some b := by
      rw [Memory.read_writeBytes, if_neg (by omega), Memory.read_write_same]
    simp only [Memory.writeBytes, List.length_cons, Memory.readBytes, first, ih]

/-- A block is stored from a piece of the input window as it is from its place in the whole. -/
theorem storedBytes_inputPiece (x : Bool) (q : Nat) (ks : List Byte) (whole : Memory) :
    storedBytes x 0 ks (inputPiece whole q) = storedBytes x (64 * q) ks whole := by
  have piece : (inputPiece whole q).readBytes 0 64 = whole.readBytes (64 * q) 64 := by
    cases h : whole.readBytes (64 * q) 64 with
    | none => simp only [inputPiece, h]; rfl
    | some input =>
      simp only [inputPiece, h, Memory.ofBytes]
      rw [← (Memory.readBytes_eq_some whole _ _ input h).1, Memory.readBytes_writeBytes]
  simp only [storedBytes, piece]

/-! GEN1 commands over the pieces, beside the scalar blocks of one command over the whole (R99). -/

/-- The state whose windows are piece q of an input window and no output window. -/
def State.onPiece (s : State) (whole : Memory) (q : Nat) : State :=
  { s with inWin := inputPiece whole q, outWin := [], outLen := none }

/-- The state after one GEN1 over piece q has written these bytes. -/
def State.afterPiece (s : State) (whole : Memory) (q : Nat) (bytes : List Byte) : State :=
  ((s.onPiece whole q).writeOut 0 bytes).advanceBy 1

theorem exec_gen1_onPiece {x : Bool} {rounds q : Nat} {whole : Memory} {s : State} {bytes : List Byte}
    (ready : Ready .scalar rounds s) (stored : storedBytes x (64 * q) (keystream s.words rounds) whole = some bytes) :
    exec (.gen1 x rounds) (s.onPiece whole q) = .next (s.afterPiece whole q bytes) := by
  have run : scalarBlock x rounds 0 (s.onPiece whole q) = some (s.afterPiece whole q bytes) :=
    scalarBlock_eq_some_iff.2 ⟨bytes, (storedBytes_inputPiece ..).trans stored, rfl⟩
  have unattached : outRoom (s.onPiece whole q) 64 = true := outRoom_unattached _ _ rfl
  calc exec (.gen1 x rounds) (s.onPiece whole q)
      = accepted none 1 (scalarBlocks x rounds 1 0 (s.onPiece whole q)) (s.onPiece whole q) :=
        exec_generation_ready (k := .one) (s := s.onPiece whole q) ready x
    _ = .next (s.afterPiece whole q bytes) := by
        rw [scalarBlocks_one, run, accepted_none_some, if_pos unattached]

theorem gen1Sequence_succ {x : Bool} {rounds q : Nat} {whole : Memory} {s : State} {bytes : List Byte} (n : Nat)
    (running : s.fault = false) (ready : Ready .scalar rounds s)
    (stored : storedBytes x (64 * q) (keystream s.words rounds) whole = some bytes) (length : bytes.length = 64) :
    gen1Sequence x rounds whole (n + 1) q s =
      (gen1Sequence x rounds whole n (q + 1) (s.afterPiece whole q bytes)).map fun p => (p.1, bytes ++ p.2) := by
  have completes : exec (.gen1 x rounds) { s with inWin := inputPiece whole q, outWin := [], outLen := none } =
      .next (s.afterPiece whole q bytes) := exec_gen1_onPiece ready stored
  have noFault : (s.afterPiece whole q bytes).fault = false := running
  have output : (s.afterPiece whole q bytes).outWin.readBytes 0 64 = some bytes :=
    length ▸ Memory.readBytes_writeBytes [] 0 bytes
  simp only [gen1Sequence, completes, noFault, output]
  cases gen1Sequence x rounds whole n (q + 1) (s.afterPiece whole q bytes) <;> rfl

/-- The registers of the engine are the same; the windows need not be. -/
structure SameRegisters (s t : State) : Prop where
  words : s.words = t.words
  conv : s.conv = t.conv
  valid : s.valid = t.valid
  fault : s.fault = t.fault
  cause : s.cause = t.cause

theorem SameRegisters.refl (s : State) : SameRegisters s s := ⟨rfl, rfl, rfl, rfl, rfl⟩

/-- A block of the whole and the GEN1 over its piece advance alike. -/
theorem SameRegisters.afterPiece {s s' : State} (h : SameRegisters s s') (whole : Memory) (q off : Nat)
    (bytes : List Byte) : SameRegisters ((s.writeOut off bytes).advanceBy 1) (s'.afterPiece whole q bytes) where
  words := congrArg₂ (fun conv words => advanceN conv 1 words) h.conv h.words
  conv := h.conv
  valid := h.valid
  fault := h.fault
  cause := h.cause

/-- Scalar blocks from piece q on and the GEN1 commands over the same pieces end in the same registers, and the former
write in a row what the latter write one by one. -/
theorem gen1Sequence_of_scalarBlocks {x : Bool} {rounds n q : Nat} {s s' t : State} (same : SameRegisters s s')
    (running : s'.fault = false) (ready : Ready .scalar rounds s')
    (run : scalarBlocks x rounds n (64 * q) s = some t) :
    ∃ u bytes, gen1Sequence x rounds s.inWin n q s' = some (u, bytes) ∧ SameRegisters t u ∧
      bytes.length = 64 * n ∧ t.outWin = s.outWin.writeBytes (64 * q) bytes := by
  induction n generalizing q s s' with
  | zero => cases run; exact ⟨s', [], rfl, same, rfl, rfl⟩
  | succ n ih =>
    obtain ⟨v, block, others⟩ := Option.bind_eq_some_iff.1 run
    obtain ⟨bytes, stored, rfl⟩ := scalarBlock_eq_some_iff.1 block
    obtain ⟨length, -⟩ := storedBytes_spec x _ _ _ bytes (keystream_length ..) stored
    obtain ⟨u, rest, sequence, registers, restLength, written⟩ :=
      ih (q := q + 1) (same.afterPiece s.inWin q (64 * q) bytes) running ready others
    refine ⟨u, bytes ++ rest, ?_, registers, by rw [List.length_append, length, restLength]; omega, ?_⟩
    · rw [gen1Sequence_succ n running ready (same.words ▸ stored) length]
      exact congrArg _ sequence
    · rw [← Memory.writeBytes_append, length]
      exact written

/-- What passes the checks of any generation command passes those of GEN1, whose backend is always there (R102). -/
theorem Ready.scalar {backend : Backend} {rounds : Nat} {s : State} (ready : Ready backend rounds s) :
    Ready .scalar rounds s :=
  have ⟨supported, _, valid⟩ := ready
  ⟨supported, rfl, valid⟩

/-- An accepted generation command whose windows are as R133 (e) asks, whatever its backend or schedule, writes what
its NB consecutive GEN1 commands write, and leaves their registers (R99, R108). -/
theorem exec_generation_gen1Sequence {k : GenKind} {x : Bool} {rounds : Nat} {s : State} (running : s.fault = false)
    (ready : Ready k.backend rounds s) (room : OutputHolds s (64 * k.blocks))
    (covers : x = true → InputCovers s.inWin (64 * k.blocks)) :
    ∃ t u bytes, exec (k.command x rounds) s = .next t ∧
      gen1Sequence x rounds s.inWin k.blocks 0 s = some (u, bytes) ∧
      t.outWin.readBytes 0 (64 * k.blocks) = some bytes ∧ SameRegisters t u := by
  obtain ⟨t, run⟩ := scalarBlocks_completes rounds covers
  obtain ⟨u, bytes, sequence, registers, length, written⟩ :=
    gen1Sequence_of_scalarBlocks (q := 0) (.refl s) running ready.scalar run
  refine ⟨t, u, bytes, ?_, sequence, ?_, registers⟩
  · rw [exec_generation_ready ready, run, accepted_none_some, if_pos room]
  · rw [written, ← length]
    exact Memory.readBytes_writeBytes ..

/-- Settles O46: GEN4 and GEN8 are two of the generation commands that run as their GEN1 commands do. -/
theorem wideBackendEqualsSequentialScalar : Obligations.WideBackendEqualsSequentialScalar := by
  intro k x rounds s _ running ready room covers
  obtain ⟨t, u, bytes, completes, sequence, output, registers⟩ :=
    exec_generation_gen1Sequence running ready room covers
  exact ⟨t, u, bytes, completes, sequence, output, registers.words, registers.conv, registers.valid, registers.fault,
    registers.cause⟩

end Sys2Proof.Machine
end

section
/-! PROOFS of 44_dispatch: the schedule (R107, R111), the blocks of DISPATCH and the GEN1 commands it equals (R104,
R108), the preference (R108), and DISPATCH without a whole block (R109). -/

namespace Sys2Proof.Machine

/-! The schedule (R107, R111). -/

theorem drain_of_ne_four (hasV4 : Bool) {remaining : Nat} (h : remaining ≠ 4) :
    drain hasV4 remaining = List.replicate remaining .scalar :=
  if_neg fun four => h four.1

theorem drain_length_le (hasV4 : Bool) (remaining : Nat) : (drain hasV4 remaining).length ≤ remaining := by
  unfold drain
  split
  · next four => rw [four.1]; decide
  · rw [List.length_replicate]

theorem schedule_length (hasV4 : Bool) (pref : Backend) (nb : Nat) :
    (schedule hasV4 pref nb).length = nb / pref.width + (drain hasV4 (nb % pref.width)).length := by
  rw [schedule, List.length_append, List.length_replicate]

theorem backend_width_bounds (b : Backend) : 0 < b.width ∧ b.width ≤ 8 := by cases b <;> decide

/-- Settles O50: only a remainder of eight can be the four blocks that the drain runs as one group. -/
theorem scheduleByPreference : Obligations.ScheduleByPreference := by
  refine fun hasV4 nb => ⟨?_, ?_, rfl⟩
  · have remainder : nb % Backend.scalar.width = 0 := Nat.mod_one nb
    have groups : nb / Backend.scalar.width = nb := Nat.div_one nb
    rw [schedule, groups, remainder, drain_of_ne_four hasV4 (by decide), List.replicate_zero, List.append_nil]
  · have remainder : nb % Backend.v4.width < 4 := Nat.mod_lt nb (by decide)
    rw [schedule, drain_of_ne_four hasV4 remainder.ne]
    rfl

/-- Settles O51: the drain has no more groups than blocks, which are fewer than the width. -/
theorem scheduleEmitsExactlyTheBlocks : Obligations.ScheduleEmitsExactlyTheBlocks := by
  refine ⟨fun hasV4 pref nb => ⟨schedule_widths hasV4 pref nb, ?_⟩, fun len fits => ?_, fun rounds fits => ?_⟩
  · obtain ⟨positive, atMost⟩ := backend_width_bounds pref
    have remainder : nb % pref.width < pref.width := Nat.mod_lt nb positive
    have drained := drain_length_le hasV4 (nb % pref.width)
    rw [schedule_length]
    omega
  · simp only [LenFits] at fits
    rw [blockCount]
    omega
  · simp only [RoundsFits] at fits
    omega

/-! The blocks of DISPATCH and the GEN1 commands it equals (R104, R108). -/

/-- Settles O47: DISPATCH is the generation command of floor(LEN / 64) blocks, whatever its schedule. -/
theorem dispatchEmitsWholeBlocks : Obligations.DispatchEmitsWholeBlocks :=
  fun pref _ _ len _ ready room covers => exec_generation_completes (k := .dispatch pref len) ready room covers

/-- Settles O48: DISPATCH runs as its GEN1 commands do, and what completes has emitted its blocks. -/
theorem dispatchEqualsSequentialScalar : Obligations.DispatchEqualsSequentialScalar := by
  intro pref x rounds len s running ready room covers
  obtain ⟨t, u, bytes, completes, sequence, output, registers⟩ :=
    exec_generation_gen1Sequence (k := .dispatch pref len) running ready room covers
  have emitted := exec_generation_emitted (k := .dispatch pref len) ready completes
  exact ⟨t, u, bytes, completes, sequence, output, registers.words, registers.conv, registers.valid, registers.fault,
    registers.cause, emitted.words, fun off below => (emitted.inside off below).2⟩

/-! The preference (R108). -/

/-- DISPATCH reads its preference in the availability check alone (R103, R106). -/
theorem exec_dispatch_eq (pref : Backend) (x : Bool) (rounds len : Nat) (s : State) :
    exec (.dispatch pref x rounds len) s =
      accepted (generationCause (roundsSupported s.cfg rounds) (pref.available s.cfg) s.valid) (blockCount len)
        (scalarBlocks x rounds (blockCount len) 0 s) s :=
  (exec_generation (.dispatch pref len) x rounds s).trans <|
    congrArg (accepted _ _ · s) (GenKind.run_eq_scalarBlocks (.dispatch pref len) x rounds s)

/-- Settles O49: both preferences pass the one check that reads them. -/
theorem preferenceIsNotObservable : Obligations.PreferenceIsNotObservable := by
  intro pref pref' x rounds len s available available'
  rw [exec_dispatch_eq, exec_dispatch_eq, available, available']

/-! DISPATCH without a whole block (R109). -/

theorem exec_generation_not_ready (k : GenKind) (x : Bool) {rounds : Nat} {s : State}
    (h : ¬ Ready k.backend rounds s) :
    ∃ c : Cause, exec (k.command x rounds) s = .next (raiseFault c s) ∧
      (c = .invalidRounds ∨ c = .backendUnavailable ∨ c = .stateNotSet) := by
  cases supported : roundsSupported s.cfg rounds with
  | false => exact ⟨_, exec_generation_invalidRounds k x supported, .inl rfl⟩
  | true =>
    cases available : k.backend.available s.cfg with
    | false => exact ⟨_, exec_generation_backendUnavailable k x supported available, .inr (.inl rfl)⟩
    | true =>
      have valid : s.valid = false := Bool.eq_false_of_not_eq_true fun valid => h ⟨supported, available, valid⟩
      exact ⟨_, exec_generation_stateNotSet k x supported available valid, .inr (.inr rfl)⟩

/-- An accepted generation command of no block runs nothing, and no output window is too short for it. -/
theorem exec_generation_no_blocks {k : GenKind} {rounds : Nat} {s : State} (ready : Ready k.backend rounds s)
    (x : Bool) (noBlocks : k.blocks = 0) : exec (k.command x rounds) s = .next s := by
  rw [exec_generation_ready ready, noBlocks, scalarBlocks, accepted_none_some, if_pos (outRoom_zero s)]

/-- Settles O52: LEN < 64 is no whole block, and the checks are those of every generation command. -/
theorem zeroLengthDispatchChangesNothing : Obligations.ZeroLengthDispatchChangesNothing :=
  fun pref x _ len _ short =>
    ⟨fun ready => exec_generation_no_blocks (k := .dispatch pref len) ready x (Nat.div_eq_of_lt short),
      exec_generation_not_ready (.dispatch pref len) x⟩

end Sys2Proof.Machine
end

section
/-! PROOFS of 60_exceptions: the order of the checks (R121), what a fault changes and reads (R118), the halted engine
(R123), the windows that are too short (R124; log entry 3), and a State set up with an advanced counter (R128). -/

namespace Sys2Proof.Machine

/-! A fault changes the latch alone and reads no byte of IN (R118). -/

/-- The meaning answers with the fault entry, and with the same cause whatever input window is attached. -/
def FaultsOverAnyInput (meaning : State → Host.Outcome State Fault Refusal) (s : State) : Prop :=
  ∃ c, ∀ m, meaning (s.withInput m) = .next (raiseFault c (s.withInput m))

theorem Emitted.fault {x : Bool} {rounds nb : Nat} {s t : State} (h : Emitted x rounds nb s t) :
    t.fault = s.fault := by
  rw [h.rest]

/-- The cause of a generation command is read off the parameters and VALID, which are those of any input window; and a
command without a cause keeps FAULT. -/
theorem exec_generation_faults {k : GenKind} {x : Bool} {rounds : Nat} {s t : State} (running : s.fault = false)
    (h : exec (k.command x rounds) s = .next t) (halted : t.fault = true) :
    FaultsOverAnyInput (exec (k.command x rounds)) s := by
  rw [exec_generation, GenKind.run_eq_scalarBlocks] at h
  rcases accepted_next _ _ _ _ _ h with ⟨c, cause, -⟩ | ⟨-, -, run⟩
  · refine ⟨c, fun m => ?_⟩
    rw [exec_generation, State.withInput_cfg, State.withInput_valid, cause, accepted_some]
  · rw [(scalarBlocks_emitted run).fault, running] at halted
    cases halted

theorem exec_faults {i : Instr} {s t : State} (running : s.fault = false) (h : exec i s = .next t)
    (halted : t.fault = true) : FaultsOverAnyInput (exec i) s := by
  cases i with
  | setupOrig keybits key c0 c1 n0 n1 =>
    by_cases legal : keybits = 128 ∨ keybits = 256
    · rw [exec_setupOrig_legalKeybits legal] at h
      cases h
      rw [State.populate_fault, running] at halted
      cases halted
    · exact ⟨.invalidKeybits, fun m => exec_setupOrig_invalidKeybits (not_or.1 legal) ..⟩
  | setupRfc key c0 n0 n1 n2 =>
    cases h
    rw [State.populate_fault, running] at halted
    cases halted
  | gen1 x rounds => exact exec_generation_faults (k := .one) running h halted
  | gen4 x rounds => exact exec_generation_faults (k := .four) running h halted
  | gen8 x rounds => exact exec_generation_faults (k := .eight) running h halted
  | dispatch pref x rounds len => exact exec_generation_faults (k := .dispatch pref len) running h halted
  | zeroize =>
    cases h
    rw [State.destroy_fault, running] at halted
    cases halted

theorem presentPacket_illegal {packet : List Word} {s : State} {r : Reject} (running : s.fault = false)
    (hd : decode packet = .rejected r) (illegal : r.isIllegal = true) :
    presentPacket packet s = .next (raiseFault .illegalCommand s) := by
  simp [presentPacket, running, hd, illegal]

theorem presentPacket_faults {packet : List Word} {s t : State} (running : s.fault = false)
    (h : presentPacket packet s = .next t) (halted : t.fault = true) :
    FaultsOverAnyInput (presentPacket packet) s := by
  rcases presentPacket_cases packet s with ⟨halted', -⟩ | ⟨-, i, hd, e⟩ | ⟨-, r, hd, illegal, -⟩ | ⟨-, r, -, -, e⟩
  · rw [running] at halted'
    cases halted'
  · obtain ⟨c, hc⟩ := exec_faults running (e ▸ h) halted
    exact ⟨c, fun m => (presentPacket_command (s := s.withInput m) running hd).trans (hc m)⟩
  · exact ⟨.illegalCommand, fun m => presentPacket_illegal (s := s.withInput m) running hd illegal⟩
  · rw [e] at h
    cases h

/-- Of the host's acts only a packet can take a running engine to a fault. -/
theorem Performed.packet_of_fault {s t : State} {act : HostAct} (h : Performed s act t) (running : s.fault = false)
    (halted : t.fault = true) : ∃ words, act = .packet words := by
  by_cases reset : act = .reset
  · subst reset
    cases h
    cases halted
  · by_contra notPacket
    obtain ⟨-, -, -, fault, -⟩ := h.registers (fun words e => notPacket ⟨words, e⟩) reset
    rw [fault, running] at halted
    cases halted

theorem step_faults {s t : State} (running : s.fault = false) (h : step s = .next t) (halted : t.fault = true) :
    ∃ c, ∀ m, step (s.withInput m) =
      .next (raiseFault c (State.withInput { s with pending := s.pending.tail } m)) := by
  rcases step_next h with ⟨-, rfl⟩ | ⟨act, rest, hp, hact⟩
  · rw [running] at halted
    cases halted
  · obtain ⟨words, rfl⟩ := (performAct_performed hact).packet_of_fault running halted
    obtain ⟨c, hc⟩ := presentPacket_faults (s := { s with pending := rest }) running hact halted
    refine ⟨c, fun m => ?_⟩
    rw [step_cons (s.withInput m) _ rest hp, hp]
    exact hc m

/-- Settles O12: the fault is that over any input window, the attached one among them. -/
theorem faultChangesTheLatchOnly : Obligations.FaultChangesTheLatchOnly := by
  intro s t running h halted
  obtain ⟨c, hc⟩ := step_faults running h halted
  have entry : Host.Outcome.next t = .next (raiseFault c { s with pending := s.pending.tail }) :=
    h.symm.trans (hc s.inWin)
  cases entry
  exact ⟨⟨c, rfl⟩, hc⟩

/-! Windows that are too short (R124; log entry 3). -/

/-- A command that emitted blocks in XOR mode found every input byte below them. -/
theorem Emitted.inputCovers {rounds nb : Nat} {s t : State} (h : Emitted true rounds nb s t) :
    InputCovers s.inWin (64 * nb) := by
  intro off below
  obtain ⟨a, ha⟩ := keystream_getElem?_some (advanceN s.conv (off / 64) s.words) rounds
    (Nat.mod_lt off (by decide : 0 < 64))
  obtain ⟨p, hp, -⟩ := h.byte_xor below ha
  rw [hp]
  rfl

/-- Settles O39: a run that met a missing byte has no outcome. -/
theorem shortInputWindowIsRefused : Obligations.ShortInputWindowIsRefused := by
  intro k rounds s ready short
  rw [exec_generation_ready ready]
  cases run : scalarBlocks true rounds k.blocks 0 s with
  | none => rfl
  | some t => exact absurd (scalarBlocks_emitted run).inputCovers short

/-- Settles O60: with its input there the run has an outcome, and the room in OUT alone decides what becomes of it. -/
theorem shortOutputWindowIsRefused : Obligations.ShortOutputWindowIsRefused := by
  intro k x rounds len s ready covers attached
  have room := outRoom_attached s (64 * k.blocks) len attached
  refine ⟨fun short => ?_, fun long => ?_⟩
  · obtain ⟨t, run⟩ := scalarBlocks_completes rounds covers
    rw [decide_eq_false (by omega)] at room
    rw [exec_generation_ready ready, run, accepted_none_some, room]
    rfl
  · rw [decide_eq_true long] at room
    obtain ⟨t, completes, emitted⟩ := exec_generation_completes ready room covers
    exact ⟨t, completes, emitted.fault⟩

/-! A State set up with an advanced counter (R128). -/

/-- SETUP.ORIG puts the counter of its operands into the words (R16). -/
theorem originalWords_eq_withCounter (keybits : Nat) (key : KeyWords) (c : Nat) (n0 n1 : Word) :
    originalWords keybits key (BitVec.ofNat 32 c) (BitVec.ofNat 32 (c / 2 ^ 32)) n0 n1 =
      withCounter .original c (originalWords keybits key 0 0 n0 n1) := by
  have low : BitVec.ofNat 32 c = BitVec.ofNat 32 (c % 2 ^ 64 % 2 ^ 32) :=
    BitVec.eq_of_toNat_eq (by simp only [BitVec.toNat_ofNat]; omega)
  have high : BitVec.ofNat 32 (c / 2 ^ 32) = BitVec.ofNat 32 (c % 2 ^ 64 / 2 ^ 32) :=
    BitVec.eq_of_toNat_eq (by simp only [BitVec.toNat_ofNat]; omega)
  rw [low, high]
  unfold originalWords
  split <;> rfl

/-- SETUP.RFC puts the counter of its operands into the words (R17). -/
theorem layout_eq_withCounter (t : Tag) (key : KeyWords) (c : Nat) (n0 n1 n2 : Word) :
    layout t key (BitVec.ofNat 32 c) n0 n1 n2 = withCounter .rfc7539 c (layout t key 0 n0 n1 n2) := by
  have low : BitVec.ofNat 32 c = BitVec.ofNat 32 (c % 2 ^ 32) :=
    BitVec.eq_of_toNat_eq (by simp only [BitVec.toNat_ofNat]; omega)
  rw [low]
  rfl

/-- Words whose counter starts k later are those words k advances on. -/
theorem advanceN_withCounter_add (conv : Conv) (c k q : Nat) (s : Regs Word) :
    advanceN conv q (withCounter conv (c + k) s) = advanceN conv (k + q) (withCounter conv c s) := by
  rw [advanceN_withCounter, advanceN_withCounter, Nat.add_assoc]

/-- Settles O54: both setups leave words with their counter put in, and advances add to that counter. -/
theorem cloneWithAdvancedCounter : Obligations.CloneWithAdvancedCounter := by
  intro keybits key c k q rounds n0 n1 n2
  refine ⟨?_, ?_⟩
  · simp only [originalWords_eq_withCounter, advanceN_withCounter_add]
  · simp only [layout_eq_withCounter, advanceN_withCounter_add]

/-! The halted engine (R123). -/

theorem step_packet_halted {s : State} {packet : List Word} {rest : List HostAct} (halted : s.fault = true)
    (hp : s.pending = .packet packet :: rest) : step s = .next { s with pending := rest } := by
  rw [step_cons s _ rest hp]
  exact if_pos halted

/-- Settles O10: a packet is not decoded, and of the other acts only a reset writes a register. -/
theorem haltedEngineAcceptsNothingButReset : Obligations.HaltedEngineAcceptsNothingButReset := by
  intro s halted
  refine ⟨fun packet rest => step_packet_halted halted, fun index below => ?_, fun act rest t hp notReset h => ?_,
    fun rest hp => ⟨_, step_cons s .reset rest hp, rfl⟩⟩
  · exact Option.isSome_iff_exists.2 (readPort_some s below)
  · by_cases isPacket : ∃ packet, act = .packet packet
    · obtain ⟨packet, rfl⟩ := isPacket
      rw [step_packet_halted halted hp] at h
      cases h
      exact ⟨halted, rfl, rfl, rfl, rfl⟩
    · rw [step_cons s act rest hp] at h
      obtain ⟨words, conv, valid, fault, cause⟩ :=
        (performAct_performed h).registers (fun packet e => isPacket ⟨packet, e⟩) notReset
      exact ⟨fault.trans halted, cause, words, conv, valid⟩

/-! The checks on a presented packet (R121). -/

/-- Settles O11: the latch before the decoder, the decoder before exec, and in exec each cause before the next. -/
theorem acceptanceChecksInOrder : Obligations.AcceptanceChecksInOrder := by
  intro s packet rest hp
  refine ⟨fun halted => step_packet_halted halted hp, fun running => ⟨fun r hd illegal => ?_,
    fun keybits key c0 c1 n0 n1 hd not128 not256 => ?_, fun k x rounds hd => ?_⟩⟩
  · rw [step_rejected hp running hd, if_pos illegal]
  · rw [stepRunsTheDecodedCommand s packet rest _ hp running hd]
    exact exec_setupOrig_invalidKeybits ⟨not128, not256⟩ ..
  · rw [stepRunsTheDecodedCommand s packet rest _ hp running hd]
    exact ⟨exec_generation_invalidRounds k x (s := { s with pending := rest }),
      exec_generation_backendUnavailable k x (s := { s with pending := rest }),
      exec_generation_stateNotSet k x (s := { s with pending := rest })⟩

end Sys2Proof.Machine
end

section
/-! PROOFS of 70_reset_and_hazards: the waiting engine and reset (R131), the one keystream of any generation commands
(R142), and the end of a run and its result (R146). -/

namespace Sys2Proof.Machine

/-! The waiting engine and reset (R131). -/

/-- Settles O9: a step without an act to come is a wait. -/
theorem engineWaitsForAPacket : Obligations.EngineWaitsForAPacket := ⟨step_nil, rfl⟩

/-- Settles O18: a reset takes the parameters and the later acts, and no other field, from the state it meets. -/
theorem resetActRestoresResetValues : Obligations.ResetActRestoresResetValues :=
  fun s rest hp => step_cons s .reset rest hp

/-! A generation command that completes without a fault (R34, R121). -/

/-- Of the two ways a generation command goes on, only the one that emits its blocks leaves FAULT = 0. -/
theorem exec_generation_emitted_of_running {k : GenKind} {x : Bool} {rounds : Nat} {s t : State}
    (h : exec (k.command x rounds) s = .next t) (running : t.fault = false) : Emitted x rounds k.blocks s t := by
  rw [exec_generation, GenKind.run_eq_scalarBlocks] at h
  rcases accepted_next _ _ _ _ _ h with ⟨c, -, rfl⟩ | ⟨-, -, run⟩
  · cases running
  · exact scalarBlocks_emitted run

/-! One keystream (R142). -/

/-- t stands nb blocks further on in the keystream of s, with the same input window. -/
structure Continues (nb : Nat) (s t : State) : Prop where
  words : t.words = advanceN s.conv nb s.words
  conv : t.conv = s.conv
  inWin : t.inWin = s.inWin

theorem Continues.refl (s : State) : Continues 0 s s := ⟨rfl, rfl, rfl⟩

theorem Continues.trans {m n : Nat} {s t u : State} (first : Continues m s t) (second : Continues n t u) :
    Continues (m + n) s u where
  words := by rw [second.words, first.conv, first.words, advanceN_advanceN]
  conv := second.conv.trans first.conv
  inWin := second.inWin.trans first.inWin

theorem Emitted.continues {x : Bool} {rounds nb : Nat} {s t : State} (h : Emitted x rounds nb s t) :
    Continues nb s t := ⟨h.words, h.conv, h.inWin⟩

/-- A sequence of commands is its first command, completed without a fault, and the sequence of the others. -/
theorem runCommands_cons {k : GenKind} {x : Bool} {rounds : Nat} {rest : List (GenKind × Bool × Nat)} {s t : State}
    (h : runCommands ((k, x, rounds) :: rest) s = some t) :
    ∃ u, exec (k.command x rounds) s = .next u ∧ u.fault = false ∧ runCommands rest u = some t := by
  simp only [runCommands] at h
  split at h
  case h_1 u hu =>
    cases running : u.fault with
    | true => rw [running] at h; cases h
    | false => rw [running] at h; exact ⟨u, hu, running, h⟩
  all_goals cases h

theorem runCommands_continues {l : List (GenKind × Bool × Nat)} {s t : State} (h : runCommands l s = some t) :
    Continues (l.map fun c => c.1.blocks).sum s t := by
  induction l generalizing s with
  | nil => cases h; exact .refl _
  | cons c rest ih =>
    obtain ⟨u, hu, running, others⟩ := runCommands_cons h
    exact (exec_generation_emitted_of_running hu running).continues.trans (ih others)

/-- The bytes emitted after nb blocks, read off the first State: its block nb on from that of the offset. -/
theorem Continues.blockByte_keystream {nb : Nat} {s t : State} (h : Continues nb s t) (x : Bool) (rounds off : Nat) :
    ∃ b, (keystream (advanceN s.conv (nb + off / 64) s.words) rounds)[off % 64]? = some b ∧
      blockByte x rounds t off = if x then (s.inWin.read off).map (fun p => b ^^^ p) else some b := by
  obtain ⟨b, hb⟩ := keystream_getElem?_some (advanceN s.conv (nb + off / 64) s.words) rounds
    (Nat.mod_lt off (by decide : 0 < 64))
  refine ⟨b, hb, ?_⟩
  rw [← h.inWin]
  refine blockByte_eq ?_
  rwa [h.conv, h.words, advanceN_advanceN]

/-- Settles O53: the commands so far lead to a State further on in the same keystream, and the next one emits from
there. -/
theorem commandsContinueOneKeystream : Obligations.CommandsContinueOneKeystream := by
  intro l k x rounds s t u hl hu running
  have before := runCommands_continues hl
  have emitted := exec_generation_emitted_of_running hu running
  refine ⟨(before.trans emitted.continues).words, fun off below => ?_⟩
  rw [(emitted.inside off below).2]
  exact before.blockByte_keystream x rounds off

/-! The end of a run (R146). -/

theorem nextReset_iff (s : State) : NextReset s ↔ s.pending.head? = some .reset := by
  rw [NextReset, List.head?_eq_some_iff]

/-- A run is over at a state with FAULT = 1, however many steps it may still take. -/
theorem runFrom_halted (n : Nat) {s : State} (emitted : List Byte) (halted : s.fault = true) :
    runFrom n s emitted = some (emitted, s) := by
  cases n with
  | zero => rfl
  | succ n => exact if_pos halted

theorem runFrom_reset (n : Nat) {s : State} (emitted : List Byte) (running : s.fault = false) (reset : NextReset s) :
    runFrom (n + 1) s emitted = none := by
  rw [runFrom, running, if_neg Bool.false_ne_true, if_pos ((nextReset_iff s).1 reset)]

theorem runFrom_next (n : Nat) {s t : State} (emitted : List Byte) (running : s.fault = false)
    (noReset : ¬ NextReset s) (h : step s = .next t) :
    runFrom (n + 1) s emitted = runFrom n t (emitted ++ outputOf s t) := by
  rw [runFrom, running, if_neg Bool.false_ne_true, if_neg (mt (nextReset_iff s).2 noReset), h]

/-- A run that has a step left and ends well takes it: it is no reset, and the run after it ends the same. -/
theorem runFrom_succ_endedWell {n : Nat} {s t : State} {emitted out : List Byte}
    (h : runFrom (n + 1) s emitted = some (out, t)) (well : EndedWell t) :
    ∃ u, ¬ NextReset s ∧ step s = .next u ∧ runFrom n u (emitted ++ outputOf s u) = some (out, t) := by
  have running : s.fault = false := Bool.eq_false_of_not_eq_true fun halted => by
    rw [runFrom_halted _ _ halted] at h
    cases h
    cases halted.symm.trans well
  have noReset : ¬ NextReset s := fun reset => by
    rw [runFrom_reset _ _ running reset] at h
    cases h
  cases hs : step s with
  | next u => exact ⟨u, noReset, rfl, runFrom_next n emitted running noReset hs ▸ h⟩
  | fault r => simp [runFrom, running, hs] at h
  | refused r => simp [runFrom, running, hs] at h

/-- A run of as many steps as there are acts that ends well has performed every act, and none of them was a reset. -/
theorem runFrom_performs_every_act {s t : State} {emitted out : List Byte}
    (h : runFrom s.pending.length s emitted = some (out, t)) (well : EndedWell t) :
    t.pending = [] ∧ .reset ∉ s.pending := by
  induction hp : s.pending generalizing s emitted with
  | nil =>
    rw [hp] at h
    cases h
    exact ⟨hp, List.not_mem_nil⟩
  | cons act rest ih =>
    rw [hp] at h
    obtain ⟨u, noReset, hs, others⟩ := runFrom_succ_endedWell h well
    have taken : u.pending = rest := by rw [(instanceIsFixedAndActsAreTakenInOrder s u hs).2, hp, List.tail_cons]
    obtain ⟨done, noneLater⟩ := ih (taken ▸ others) taken
    refine ⟨done, fun reset => ?_⟩
    rcases List.mem_cons.1 reset with rfl | later
    · exact noReset ⟨rest, hp⟩
    · exact noneLater later

/-! What a generation command adds to the result of a run (R34, R146). -/

theorem blocksOf_command (k : GenKind) (x : Bool) (rounds : Nat) : blocksOf (k.command x rounds) = k.blocks := by
  cases k <;> rfl

theorem blocksEmitted_generation {s t : State} {packet : List Word} {rest : List HostAct} {k : GenKind} {x : Bool}
    {rounds : Nat} (hp : s.pending = .packet packet :: rest) (hd : decode packet = .command (k.command x rounds))
    (before : s.fault = false) (after : t.fault = false) : blocksEmitted s t = k.blocks := by
  simp only [blocksEmitted, hp, hd, before, after]
  exact blocksOf_command k x rounds

/-- Every byte of the emitted blocks is there, so the output of the step is those bytes and no others. -/
theorem Emitted.outputOf_bytes {x : Bool} {rounds nb : Nat} {s s' t : State} (h : Emitted x rounds nb s' t)
    (blocks : blocksEmitted s t = nb) :
    (outputOf s t).length = 64 * nb ∧ ∀ off < 64 * nb, (outputOf s t)[off]? = blockByte x rounds s' off := by
  obtain ⟨bytes, hb⟩ := Option.isSome_iff_exists.1 <|
    (Memory.readBytes_isSome t.outWin 0 (64 * nb)).2 fun off below => by
      rw [Nat.zero_add]
      exact (h.inside off below).1
  obtain ⟨length, each⟩ := Memory.readBytes_eq_some _ _ _ _ hb
  rw [outputOf, blocks, hb, Option.getD_some]
  refine ⟨length, fun off below => ?_⟩
  rw [← each off below, Nat.zero_add]
  exact (h.inside off below).2

/-- Settles O55: each way a run goes on is an equation of it, the acts are counted off step by step, and the bytes of a
step are those of the blocks it emitted. -/
theorem outputOfAStepIsItsBlocks : Obligations.OutputOfAStepIsItsBlocks := by
  refine ⟨fun n s emitted => ⟨runFrom_halted n emitted, runFrom_reset n emitted,
    fun t running noReset => runFrom_next n emitted running noReset⟩,
    fun cfg acts out t => runFrom_performs_every_act (s := { State.reset with cfg := cfg, pending := acts }),
    fun packet rest k x rounds s t hp hd before h after => ?_⟩
  rw [stepRunsTheDecodedCommand s packet rest _ hp before hd] at h
  exact (exec_generation_emitted_of_running h after).outputOf_bytes (blocksEmitted_generation hp hd before after)

end Sys2Proof.Machine
end
